-- ==== Sys2Proof/Word.lean ====
section
/-! DEFINITION. The arithmetic primitives of 00_scope.md R12 on cell values.

R11: numbers are mathematical integers unless a value is explicitly reduced by `wrap_W`, and every rule reads a cell as
the signed two's-complement integer of its W-bit pattern. The width W is a parameter (R8), so a cell value is an `Int` and
"fits W bits" is an invariant of the state (Safety.lean). DESIGN CHOICE (safe): assumption 3. `sext_N` of R12 leaves a
value unchanged and `zext_N` is never used, so neither has a function here. -/

namespace Sys2Proof

/-- 2^(W-1): the number of non-negative W-bit values, and the largest legal capacity (R9). -/
def half (W : Nat) : Nat := 2 ^ (W - 1)

/-- `fits_W(x)` of R12: -2^(W-1) <= x <= 2^(W-1)-1, the upper bound written as x < 2^(W-1). -/
abbrev Fits (W : Nat) (x : Int) : Prop := -(half W : Int) ≤ x ∧ x < (half W : Int)

/-- `wrap_W(x)` of R12: the integer of the W-bit range that is congruent to x modulo 2^W. -/
def wrapW (W : Nat) (x : Int) : Int := x.bmod (2 ^ W)

end Sys2Proof
end

