-- ==== Sys2Proof/Config.lean ====
section
/-! DEFINITION. The implementation parameters of 00_scope.md R8. The spec leaves no value of an instruction open, so there
is no free value here. -/

namespace Sys2Proof

/-- OVF of R8: what a subtraction whose exact result does not fit W bits does (R74). -/
inductive OverflowMode where
  | wrap
  | fault
  deriving DecidableEq, Repr

/-- The three parameters "which a model takes as arguments" (R8): W, K and OVF. -/
structure Config where
  cellBits : Nat
  capacity : Nat
  overflow : OverflowMode
  deriving DecidableEq, Repr

/-- The legal values of R8 and R9: W >= 2 and K <= 2^(W-1). -/
abbrev Config.Legal (c : Config) : Prop := 2 ≤ c.cellBits ∧ c.capacity ≤ half c.cellBits

/-- R10: the reference configuration SUBLEQ(32, 2^31, WRAP). -/
def Config.reference : Config := ⟨32, 2147483648, .wrap⟩

end Sys2Proof
end

