-- ==== Sys2Proof/Syntax.lean ====
section
/-! DEFINITION. The instruction set: the one row SUBLEQ of spec/opcode_table.json (R2, R66). -/

namespace Sys2Proof

/-- SUBLEQ a, b, c (R78): `a` the subtrahend address, `b` the minuend and destination address, `c` the jump address, each
the signed value of its whole cell (R54, R56). -/
inductive Instr where
  | subleq (a b c : Int)
  deriving DecidableEq, Repr

end Sys2Proof
end

