-- ==== Sys2Proof/WellFormed.lean ====
section
/-! DEFINITION. When an instruction term is one that W-bit cells can hold. -/

namespace Sys2Proof

/-- R54: each field fills one W-bit cell, so each must fit W bits. Nothing else is asked: no encoding is reserved or illegal
(R55, R57), and whether an address lies in memory is decided when the step runs (R57, R72). -/
def Instr.wf (W : Nat) : Instr → Bool
  | .subleq a b c => decide (Fits W a) && decide (Fits W b) && decide (Fits W c)

end Sys2Proof
end

