-- ==== Sys2Proof/Decode.lean ====
section
/-! DEFINITION. Decoding and encoding of the one format T3 (30_encoding.md R53 to R58).

The core has no byte order and no bit-level view of a triple (R43): the unit of an encoding is the cell. The bit view below
(`cellOfBits`, `cellsOfWord`) is the host's numbering of a table word, first cell in the low bits; DESIGN CHOICE (safe):
assumption 9. -/

namespace Sys2Proof

/-- Why a sequence of cells is not an instruction. There is one reason: no pattern is illegal (R55), so only a sequence
shorter than three cells is refused (R53). -/
inductive DecodeError where
  | truncated (cells : Nat)
  deriving DecidableEq, Repr

/-- R53: the first three cells, in address order, are A, B and C; the rest of the sequence is handed back. -/
def decode : List Int → Except DecodeError (Instr × List Int)
  | a :: b :: c :: rest => .ok (.subleq a b c, rest)
  | [a, b] => .error (.truncated [a, b].length)
  | [a] => .error (.truncated [a].length)
  | [] => .error (.truncated 0)

/-- R53: the three cells of an instruction, in address order. -/
def encode : Instr → List Int
  | .subleq a b c => [a, b, c]

/-- R11, R54: the signed value of the W-bit pattern in the low W bits of `w`. -/
def cellOfBits (W w : Nat) : Int := (BitVec.ofNat W w).toInt

/-- R11: the W-bit pattern of a cell value, as a number. -/
def bitsOfCell (W : Nat) (v : Int) : Nat := (BitVec.ofInt W v).toNat

/-- `n` cells out of one number: the first cell in bits [W-1:0], the next in the W bits above it, and so on. -/
def cellsOfWord (W : Nat) : Nat → Nat → List Int
  | 0, _ => []
  | n + 1, w => cellOfBits W w :: cellsOfWord W n (w / 2 ^ W)

/-- The number whose W-bit fields, from bit 0 up, are the patterns of the cells. -/
def wordOfCells (W : Nat) : List Int → Nat
  | [] => 0
  | v :: vs => bitsOfCell W v + 2 ^ W * wordOfCells W vs

/-- R58: every instruction is three cells long. -/
def instrCells : Nat := 3

/-- The instruction in the low 3W bits of a number. -/
def decodeWord (W w : Nat) : Except DecodeError (Instr × List Int) := decode (cellsOfWord W instrCells w)

/-- The 3W bits of an instruction as one number. -/
def encodeWord (W : Nat) (i : Instr) : Nat := wordOfCells W (encode i)

/-- The instruction the decoder reads from a table word of `nbits` bits at the reference width W = 32 (R10, R54). -/
def decodeTableWord (nbits w : Nat) : Option Instr :=
  match decodeWord Config.reference.cellBits (w % 2 ^ nbits) with
  | .ok (i, _) => some i
  | .error _ => none

end Sys2Proof
end

