-- ==== Sys2Proof/Machine/State.lean ====
section
/-! DEFINITION. The state of the core as plain data (10_state.md), the reasons a step can stop outside the spec's own
outcomes, and the power-on state. -/

namespace Sys2Proof.Machine

/-- RUN_STATE (R22). The reserved value 3 is never written and is no value of this type (I12); DESIGN CHOICE (safe):
assumption 7. The numeric encoding is `RunState.code`. -/
inductive RunState where
  | running
  | halted
  | faulted
  deriving DecidableEq, Repr

/-- FAULT_CAUSE (R24). The numeric encoding is `FaultCause.code`. -/
inductive FaultCause where
  | none
  | negAddr
  | capExceeded
  | overflow
  deriving DecidableEq, Repr

/-- The memory array (R17), sparse (R52): cell address and cell value, in the canonical form `Memory.wf`. The unit is the
cell, not the byte (R32, R43); DESIGN CHOICE (safe): assumption 4. -/
abbrev Memory := List (Nat × Int)

/-- What an unlisted cell of the valid range reads as: the 0 that growth stores (R39). Cells at or beyond SIZE do not exist
(R19), and `State.fetchCell` gives none of them a value. -/
def Memory.unlisted : Int := 0

/-- The canonical form: addresses strictly rising, and no entry that says what an unlisted cell reads as. -/
abbrev Memory.wf (m : Memory) : Prop :=
  m.Pairwise (fun p q => p.1 < q.1) ∧ ∀ p ∈ m, p.2 ≠ Memory.unlisted

/-- The internal latch IA, IB, IC (R27): written by the fetch of an executing step (R70). No host port reads it, and its
value between steps is not architectural; the model keeps the last one (DESIGN CHOICE, unsafe: assumption 5). -/
structure Latch where
  ia : Int
  ib : Int
  ic : Int
  deriving DecidableEq, Repr

/-- The state of R15, the latch of R27, and the parameters of R8.

`cfg` is the model's own field: W, K and OVF are not state (R29), and nothing ever writes it (DESIGN CHOICE, safe:
assumption 1). -/
structure State where
  cfg        : Config
  mem        : Memory
  size       : Nat
  pc         : Int
  runState   : RunState
  faultCause : FaultCause
  faultAddr  : Int
  latch      : Latch
  deriving DecidableEq, Repr

/-- Reasons of `Outcome.fault`: none. The faults of the spec (R104 to R107) have their effect described, so they are NEXT
states with RUN_STATE = FAULTED, and no step of this model stops the machine in any other way. Nothing raises a value of
this type, which is safe: no behaviour is lost in it. DEDUCED (R102): assumption 6. -/
inductive Fault where
  deriving DecidableEq, Repr

/-- Reasons of `Outcome.refused`. -/
inductive Refusal where
  /-- Raised by an arm of `exec` whose instruction has no meaning yet; safe, since nothing is claimed of such an instruction.
  The one instruction of this core has its meaning, so no arm raises it. -/
  | notModelled (mnemonic : String)
  deriving DecidableEq, Repr

/-- The power-on state (R30, R119): SIZE 0, PC 0, RUNNING, no fault, which is what LOAD([], 0) gives. The configuration is
the reference one (R10; assumption 2). The latch is "unspecified, not observable" (R30): DESIGN CHOICE 0, unsafe,
assumption 5. -/
def State.reset : State where
  cfg := Config.reference
  mem := []
  size := 0
  pc := 0
  runState := .running
  faultCause := .none
  faultAddr := 0
  latch := ⟨0, 0, 0⟩

end Sys2Proof.Machine
end

