-- ==== Sys2Proof/Machine/Ops.lean ====
section
/-! DEFINITION. The operations shared by the step and the host transactions: memory (20_memory.md R36 to R42), the fetch
(40_subleq.md R69, R70), the halt (R71), raising a fault (R104), and LOAD (R87, R88), the only way back from one. -/

namespace Sys2Proof.Machine

/-! ### The sparse array -/

/-- Lists cell `i` with value `v` in front, unless `v` is what an unlisted cell reads as. -/
def Memory.cons (i : Nat) (v : Int) (m : Memory) : Memory :=
  if v = Memory.unlisted then m else (i, v) :: m

/-- The bare array reference MEM[i] of R13. -/
def Memory.read : Memory → Nat → Int
  | [], _ => Memory.unlisted
  | (j, v) :: m, i => if j = i then v else Memory.read m i

/-- MEM[i] <- v, keeping the canonical form. -/
def Memory.write : Memory → Nat → Int → Memory
  | [], i, v => Memory.cons i v []
  | (j, u) :: m, i, v =>
    if i < j then Memory.cons i v ((j, u) :: m)
    else if i = j then Memory.cons i v m
    else (j, u) :: Memory.write m i v

/-- Only the cells below `n`; every cell from `n` on then reads as 0. -/
def Memory.below (n : Nat) (m : Memory) : Memory := m.filter fun p => decide (p.1 < n)

/-- The array whose cells `i`, `i + 1`, … hold the given values: LOAD's loop (R87). -/
def Memory.ofCells (i : Nat) : List Int → Memory
  | [] => []
  | v :: vs => Memory.cons i v (Memory.ofCells (i + 1) vs)

/-! ### The access primitives -/

/-- `FetchCell(i)` (R36): the bounds-checked read that never grows memory. A cell at or beyond SIZE has no value (R19, I10),
so the answer there is `none`. -/
def State.fetchCell (s : State) (i : Nat) : Option Int :=
  if i < s.size then some (Memory.read s.mem i) else none

/-- `Grow(x)` (R39): cells SIZE .. x become 0 and SIZE becomes x + 1. -/
def State.grow (s : State) (x : Nat) : State :=
  { s with mem := Memory.below s.size s.mem, size := x + 1 }

/-- `if x >= SIZE: Grow(x)`, the first line of R37 and R38. -/
def State.touch (s : State) (x : Nat) : State :=
  if s.size ≤ x then s.grow x else s

/-- `MemRead(x, 1)` (R37): the value, and the state after any growth. -/
def State.memRead (s : State) (x : Nat) : Int × State :=
  (Memory.read (s.touch x).mem x, s.touch x)

/-- `MemWrite(x, 1, v)` (R38). -/
def State.memWrite (s : State) (x : Nat) (v : Int) : State :=
  let t := s.touch x
  { t with mem := Memory.write t.mem x v }

/-- `Snapshot()` (R42): MEM[0], ..., MEM[SIZE-1]. -/
def State.snapshot (s : State) : List Int :=
  (List.range s.size).map (Memory.read s.mem)

/-! ### The fetch -/

/-- The fetch check of R69: the fetch fails iff PC < 0 or PC + 2 >= SIZE, on exact integers. -/
def State.fetchFails (s : State) : Bool := decide (s.pc < 0 ∨ (s.size : Int) ≤ s.pc + 2)

/-- The fetch of R69 and R70: nothing if the check fails, else the instruction in cells PC, PC+1, PC+2. -/
def State.fetchInstr (s : State) : Option Instr :=
  if s.fetchFails then none
  else
    let p := s.pc.toNat
    match [p, p + 1, p + 2].mapM s.fetchCell with
    | none => none
    | some cells =>
      match decode cells with
      | .ok (i, _) => some i
      | .error _ => none

/-- R70: IA, IB and IC take the fetched triple. -/
def State.latchInstr (s : State) : Instr → State
  | .subleq a b c => { s with latch := ⟨a, b, c⟩ }

/-! ### Halting, faulting, and the way back -/

/-- R71: the halt writes RUN_STATE and nothing else. -/
def State.halt (s : State) : State := { s with runState := .halted }

/-- `raise Fault(cause, addr)` (R104), applied to the state before the step's updates, which are thereby discarded (R14).
There is no handler and control does not move (R110). -/
def State.raiseFault (s : State) (cause : FaultCause) (addr : Int) : State :=
  { s with runState := .faulted, faultCause := cause, faultAddr := addr }

/-- R88: LOAD is refused when the image is longer than K, or when an element of it or the entry does not fit W bits. -/
def loadRefused (cfg : Config) (image : List Int) (entry : Int) : Bool :=
  decide (cfg.capacity < image.length)
    || image.any (fun v => !decide (Fits cfg.cellBits v))
    || !decide (Fits cfg.cellBits entry)

/-- An accepted LOAD(image, entry) (R87): the reset of the block (R120), and the only way out of HALTED and FAULTED (R111).
It replaces the whole state, so it takes nothing of the old one but the parameters. The latch is unspecified after LOAD
(R30): DESIGN CHOICE 0, unsafe, assumption 5. -/
def loadedState (cfg : Config) (image : List Int) (entry : Int) : State where
  cfg := cfg
  mem := Memory.ofCells 0 image
  size := image.length
  pc := entry
  runState := .running
  faultCause := .none
  faultAddr := 0
  latch := ⟨0, 0, 0⟩

end Sys2Proof.Machine
end

