-- ==== Sys2Proof/Machine/Flags.lean ====
section
/-! DEFINITION. The core has no flags or condition codes (10_state.md R26). What this file holds is the one subtraction with
its overflow decision (40_subleq.md R74) and the one condition, read from the result itself (R76). -/

namespace Sys2Proof.Machine

/-- R74: the exact difference d = vb - va if it fits W bits; otherwise `wrap_W(d)` under WRAP, and no result (the step raises
OVERFLOW) under FAULT. -/
def subtract (cfg : Config) (vb va : Int) : Option Int :=
  let d := vb - va
  match cfg.overflow with
  | .wrap => some (wrapW cfg.cellBits d)
  | .fault => if Fits cfg.cellBits d then some d else none

/-- R76: the branch is taken iff the result written to MEM[B] is <= 0. -/
def branchTaken (r : Int) : Bool := decide (r ≤ 0)

/-- R76: the next PC, C when the branch is taken and PC + 3 otherwise. -/
def nextPc (pc : Int) (r c : Int) : Int := if branchTaken r then c else pc + instrCells

end Sys2Proof.Machine
end

