-- ==== Sys2Proof/Machine/Operands.lean ====
section
/-! DEFINITION. The one operand form: the signed value of a field used as a cell address (30_encoding.md R56). -/

namespace Sys2Proof.Machine

/-- The two checks on one operand address, in the order of R72: negative, then at or above K. -/
def addrFault (cfg : Config) (x : Int) : Option FaultCause :=
  if x < 0 then some .negAddr
  else if (cfg.capacity : Int) ≤ x then some .capExceeded
  else none

/-- Operand validation (R72, R109): the checks on A, then those on B; the first that holds gives the cause and the address. -/
def operandFault (cfg : Config) (a b : Int) : Option (FaultCause × Int) :=
  match addrFault cfg a with
  | some cause => some (cause, a)
  | none =>
    match addrFault cfg b with
    | some cause => some (cause, b)
    | none => none

/-- The values of both operands, and the state their reads leave (R73). -/
structure OperandReads where
  vb : Int
  va : Int
  after : State

/-- Operand read (R73, R49): MemRead(B), then MemRead(A). -/
def readOperands (s : State) (a b : Int) : OperandReads :=
  let first := s.memRead b.toNat
  let second := first.2.memRead a.toNat
  ⟨first.1, second.1, second.2⟩

end Sys2Proof.Machine
end

