-- ==== Sys2Proof/Machine/Subleq.lean ====
section
/-! DEFINITION. The meaning of SUBLEQ (40_subleq.md R72 to R78). -/

namespace Sys2Proof.Machine

/-- SUBLEQ a, b, c (R78): the part of the step that follows the fetch. Every fault is raised on the state before the step's
updates, so growth is discarded with the rest (R14, R74, R104). -/
def execSubleq (a b c : Int) (s : State) : Host.Outcome State Fault Refusal :=
  match operandFault s.cfg a b with
  | some (cause, addr) => .next (s.raiseFault cause addr)
  | none =>
    let ops := readOperands s a b
    match subtract s.cfg ops.vb ops.va with
    | none => .next (s.raiseFault .overflow b)
    | some r =>
      .next { ops.after.memWrite b.toNat r with pc := nextPc s.pc r c }

end Sys2Proof.Machine
end

