-- ==== Sys2Proof/Machine/Step.lean ====
section
/-! DEFINITION. The step (40_subleq.md R67), and where a test word is placed for the next step to run it. -/

namespace Sys2Proof.Machine

/-- STEP (R67): nothing in HALTED or FAULTED (R68); in RUNNING, the halt if the fetch fails (R69, R71), else the fetched
triple is latched and executed (R70). The RUN_STATE that STEP returns is the one of the state it leaves (R77). -/
def step (s : State) : Host.Outcome State Fault Refusal :=
  match s.runState with
  | .halted => .next s
  | .faulted => .next s
  | .running =>
    match s.fetchInstr with
    | none => .next s.halt
    | some i => exec i (s.latchInstr i)

/-- The PC from which a placed word is fetched: the PC itself if a triple there lies in memory, else 0. -/
def State.fetchBase (s : State) : Nat :=
  if 0 ≤ s.pc ∧ s.pc + 2 < s.cfg.capacity then s.pc.toNat else 0

/-- The state with the table word's three cells stored where the next step fetches, in the valid range, and RUNNING with a
clear fault record: it stands for a LOAD, by which alone a program enters the machine (R87, R122). Assumption 8. -/
def State.withFetchWord (s : State) (nbits w : Nat) : State :=
  let base := s.fetchBase
  let placed := (cellsOfWord s.cfg.cellBits instrCells (w % 2 ^ nbits)).zipIdx.foldl
    (fun t cell => t.memWrite (base + cell.2) cell.1) s
  { placed with pc := base, runState := .running, faultCause := .none, faultAddr := 0 }

end Sys2Proof.Machine
end

