-- ==== Sys2Proof/Machine/Transactions.lean ====
section
/-! DEFINITION. The seven host transactions (45_host_interface.md R86 to R96). Each is atomic, and they act only between
steps (R86, R96). DESIGN CHOICE (safe): assumption 10. -/

namespace Sys2Proof.Machine

/-- The numeric encoding of RUN_STATE (R22). -/
def RunState.code : RunState → BitVec 2
  | .running => 0
  | .halted => 1
  | .faulted => 2

/-- The RUN_STATE of a 2-bit value; the reserved value 3 is refused (R22, I12). -/
def RunState.ofCode (v : BitVec 2) : Option RunState :=
  if v = 0 then some .running else if v = 1 then some .halted else if v = 2 then some .faulted else none

/-- The numeric encoding of FAULT_CAUSE (R24, R108). -/
def FaultCause.code : FaultCause → BitVec 2
  | .none => 0
  | .negAddr => 1
  | .capExceeded => 2
  | .overflow => 3

/-- R86: the transactions. LOAD's entry is 0 by default (R87). -/
inductive Transaction where
  | load (image : List Int) (entry : Int := 0)
  | step
  | readStatus
  | readPc
  | readSize
  | snapshot
  | readFault
  deriving DecidableEq, Repr

/-- What the block returns (R96, last columns of its table). -/
inductive Reply where
  | loadOk
  | loadRefused
  | status (code : BitVec 2)
  | pc (value : Int)
  | size (cells : Nat)
  | cells (values : List Int)
  | faultRecord (cause : BitVec 2) (addr : Int)
  deriving DecidableEq, Repr

/-- One transaction: the state it leaves and the reply. LOAD by R87 and R88, STEP by R89, the read ports by R90 to R94; the
reads leave the state as it is. -/
def transact (tx : Transaction) (s : State) : Host.Outcome (State × Reply) Fault Refusal :=
  match tx with
  | .load image entry =>
    if loadRefused s.cfg image entry then .next (s, .loadRefused)
    else .next (loadedState s.cfg image entry, .loadOk)
  | .step =>
    match step s with
    | .next t => .next (t, .status t.runState.code)
    | .fault f => .fault f
    | .refused r => .refused r
  | .readStatus => .next (s, .status s.runState.code)
  | .readPc => .next (s, .pc s.pc)
  | .readSize => .next (s, .size s.size)
  | .snapshot => .next (s, .cells s.snapshot)
  | .readFault => .next (s, .faultRecord s.faultCause.code s.faultAddr)

end Sys2Proof.Machine
end

