-- ==== Sys2Proof/Safety.lean ====
section
/-! DEFINITION. The invariant of the core (the ranges of 10_state.md and the canonical form of memory), and when a run is
safe. -/

namespace Sys2Proof.Machine

/-- PC lies in [-2^(W-1), 2^(W-1)] (R20). -/
abbrev State.PcInRange (s : State) : Prop :=
  -(half s.cfg.cellBits : Int) ≤ s.pc ∧ s.pc ≤ (half s.cfg.cellBits : Int)

/-- Every listed cell lies in the valid range and fits W bits (R17, R34). -/
abbrev State.CellsInRange (s : State) : Prop :=
  ∀ p ∈ s.mem, p.1 < s.size ∧ Fits s.cfg.cellBits p.2

/-- The fault record agrees with RUN_STATE: FAULT_CAUSE is non-zero exactly when RUN_STATE = FAULTED (R24), and each cause
records the address of R108. -/
def State.FaultRecordOk (s : State) : Prop :=
  match s.faultCause with
  | .none => s.runState ≠ .faulted ∧ s.faultAddr = 0
  | .negAddr => s.runState = .faulted ∧ s.faultAddr < 0
  | .capExceeded => s.runState = .faulted ∧ (s.cfg.capacity : Int) ≤ s.faultAddr
  | .overflow =>
    s.runState = .faulted ∧ s.cfg.overflow = .fault ∧ 0 ≤ s.faultAddr ∧ s.faultAddr < s.cfg.capacity

/-- What holds of every state a run can reach. -/
structure State.Inv (s : State) : Prop where
  legal : s.cfg.Legal
  memory : Memory.wf s.mem
  cells : s.CellsInRange
  sizeBounded : s.size ≤ s.cfg.capacity
  pcRange : s.PcInRange
  faultRecord : s.FaultRecordOk
  faultAddrFits : Fits s.cfg.cellBits s.faultAddr
  latchFits : Fits s.cfg.cellBits s.latch.ia ∧ Fits s.cfg.cellBits s.latch.ib ∧ Fits s.cfg.cellBits s.latch.ic

/-- The states a host can bring the block to from power-on of a machine with configuration `cfg`, by the transactions of
R86. Power-on is LOAD([], 0) (R119). -/
inductive Reachable (cfg : Config) : State → Prop where
  | powerOn : Reachable cfg (loadedState cfg [] 0)
  | transact (tx : Transaction) (s t : State) (reply : Reply) :
      Reachable cfg s → Machine.transact tx s = .next (t, reply) → Reachable cfg t

/-- The value an operand access to cell `x` sees: MEM[x] in the valid range, and the 0 of growth beyond it (R19, R37). -/
def State.operand (s : State) (x : Int) : Int := (s.fetchCell x.toNat).getD 0

/-- Both operand addresses pass the validation of R72. -/
abbrev OperandsInMemory (cfg : Config) (a b : Int) : Prop :=
  (0 ≤ a ∧ a < cfg.capacity) ∧ (0 ≤ b ∧ b < cfg.capacity)

/-- The subtraction raises no OVERFLOW (R74): OVF = WRAP, or the exact difference fits. -/
abbrev NoOverflow (cfg : Config) (vb va : Int) : Prop :=
  cfg.overflow = .wrap ∨ Fits cfg.cellBits (vb - va)

/-- The triple a b c lies at PC, wholly in the valid range (R53, R69). -/
abbrev State.TripleAtPc (s : State) (a b c : Int) : Prop :=
  0 ≤ s.pc ∧ s.fetchCell s.pc.toNat = some a ∧ s.fetchCell (s.pc.toNat + 1) = some b
    ∧ s.fetchCell (s.pc.toNat + 2) = some c

/-- PC is outside the range from which a triple can be fetched (R69). -/
abbrev State.PcOutOfRange (s : State) : Prop := s.pc < 0 ∨ (s.size : Int) ≤ s.pc + 2

/-- `k` steps of the core, at the machine's own types. -/
def run (k : Nat) (s : State) : Host.Outcome State Fault Refusal := Sys2Proof.core.run k s

/-- A run of `n` steps from `s` ends no step in FAULTED: the premise a claim about a run's result needs (R131). -/
def SafeRun (n : Nat) (s : State) : Prop :=
  ∀ k ≤ n, ∀ t, run k s = .next t → t.runState ≠ .faulted

end Sys2Proof.Machine
end

