-- ==== Sys2Proof/Machine/Caller.lean ====
section
/-! DEFINITION. Caller-level behaviour, outside the block (00_scope.md R4): program text (30_encoding.md R61 to R63), the
driving loop and the end of a run (45_host_interface.md R97, 70_reset_and_hazards.md R130), snapshot text (R98) and exit
status (R100). No rule of the block depends on this file. -/

namespace Sys2Proof.Machine.Caller

/-! ### Program text -/

/-- The value of a non-empty string of decimal digits. -/
def digitsValue : List Char → Option Nat
  | [] => none
  | ds => if ds.all Char.isDigit then some (ds.foldl (fun n d => 10 * n + (d.toNat - 48)) 0) else none

/-- R62: a token is an integer literal when it matches `[+-]?[0-9]+` as a whole and its value fits W bits. -/
def literal (W : Nat) (token : List Char) : Option Int :=
  let value : Option Int :=
    match token with
    | '-' :: ds => (digitsValue ds).map fun n => -(n : Int)
    | '+' :: ds => (digitsValue ds).map fun n => (n : Int)
    | ds => (digitsValue ds).map fun n => (n : Int)
  value.filter fun v => decide (Fits W v)

/-- The lines of a text. -/
def splitLines : List Char → List (List Char)
  | [] => [[]]
  | c :: cs =>
    match splitLines cs with
    | [] => [[c]]
    | l :: ls => if c = '\n' then [] :: l :: ls else (c :: l) :: ls

/-- The whitespace-separated tokens of a line, empty ones included where separators meet. PRESUMED: the separators are
`Char.isWhitespace` (assumption 11). -/
def splitTokens : List Char → List (List Char)
  | [] => [[]]
  | c :: cs =>
    match splitTokens cs with
    | [] => [[c]]
    | t :: ts => if c.isWhitespace then [] :: t :: ts else (c :: t) :: ts

/-- R62: the integers before the first token that is not an integer literal. -/
def leadingLiterals (W : Nat) : List (List Char) → List Int
  | [] => []
  | t :: ts =>
    match literal W t with
    | some v => v :: leadingLiterals W ts
    | none => []

/-- R61, R62: the integers a line contributes. -/
def lineIntegers (W : Nat) (line : List Char) : List Int :=
  leadingLiterals W ((splitTokens line).filter fun t => !t.isEmpty)

/-- R61: the image of a program text: the integers in file order across all lines. -/
def programImage (W : Nat) (text : List Char) : List Int :=
  (splitLines text).flatMap (lineIntegers W)

/-- R63: the loader builds the whole image, then performs one LOAD, with entry 0 unless the caller configures another (R61). -/
def loadProgram (text : List Char) (s : State) (entry : Int := 0) : Host.Outcome (State × Reply) Fault Refusal :=
  transact (.load (programImage s.cfg.cellBits text) entry) s

/-! ### Snapshot text -/

/-- A cell value in decimal, with a leading `-` when negative (R98). -/
def renderCell (v : Int) : List Char :=
  if v < 0 then '-' :: Nat.toDigits 10 v.natAbs else Nat.toDigits 10 v.natAbs

/-- R98: a bracketed list of the values in index order, separated by single spaces; `[]` when empty. -/
def renderSnapshot (cells : List Int) : List Char :=
  '[' :: (List.intercalate [' '] (cells.map renderCell)) ++ [']']

/-! ### The driving loop and the end of a run -/

/-- The four outcomes of a run (R130). No finite watch of a run shows that it diverges (D25), so `follow` answers one of the
other three; `RunHasOutcome` says all four. -/
inductive RunEnd where
  | halted
  | faulted
  | abandoned
  | diverges
  deriving DecidableEq, Repr

/-- What was seen of a run: the end, the step count of R130 (STEPs that returned RUNNING), and the final state. -/
structure RunReport where
  ended : RunEnd
  steps : Nat
  final : State
  deriving DecidableEq, Repr

/-- One more STEP that returned RUNNING. -/
def RunReport.countStep (r : RunReport) : RunReport := { r with steps := r.steps + 1 }

/-- The run that a host's transactions after a LOAD make (R130): it ends at the first STEP that returns HALTED or FAULTED, and
is abandoned at a new LOAD, or where the STEPs stop, while RUNNING. The reads in between change nothing (R96, R123). DEDUCED:
a LOAD that is then refused abandons the run too (assumption 18). -/
def follow : List Transaction → State → RunReport
  | [], s => ⟨.abandoned, 0, s⟩
  | tx :: txs, s =>
    match tx with
    | .load _ _ => ⟨.abandoned, 0, s⟩
    | .step =>
      match step s with
      | .next t =>
        match t.runState with
        | .halted => ⟨.halted, 0, t⟩
        | .faulted => ⟨.faulted, 0, t⟩
        | .running => (follow txs t).countStep
      | .fault _ => ⟨.abandoned, 0, s⟩
      | .refused _ => ⟨.abandoned, 0, s⟩
    | .readStatus => follow txs s
    | .readPc => follow txs s
    | .readSize => follow txs s
    | .snapshot => follow txs s
    | .readFault => follow txs s

/-- R97: STEP repeatedly until it returns other than RUNNING, or until the budget runs out. -/
def drive (budget : Nat) (s : State) : RunReport := follow (List.replicate budget .step) s

/-- How many STEPs the host issues before its first LOAD. -/
def stepsBeforeLoad : List Transaction → Nat
  | [] => 0
  | tx :: txs =>
    match tx with
    | .load _ _ => 0
    | .step => stepsBeforeLoad txs + 1
    | .readStatus => stepsBeforeLoad txs
    | .readPc => stepsBeforeLoad txs
    | .readSize => stepsBeforeLoad txs
    | .snapshot => stepsBeforeLoad txs
    | .readFault => stepsBeforeLoad txs

/-- RUN_STATE is RUNNING at `s` and after each of the first `n` STEPs from it. -/
def StaysRunning (s : State) (n : Nat) : Prop := ∀ k ≤ n, ∃ t, run k s = .next t ∧ t.runState = .running

/-- Every STEP returns RUNNING, forever (R130). -/
def Diverges (s : State) : Prop := ∀ n, StaysRunning s n

/-- STEP `n + 1` is the first that does not return RUNNING, and it returns `r`. -/
def EndsAfter (s : State) (n : Nat) (r : RunState) : Prop :=
  StaysRunning s n ∧ ∃ t, run (n + 1) s = .next t ∧ t.runState = r

/-- R130: the outcome of a run from `s` under a host that issues `budget` STEPs and then no more, or that never stops
(`none`). -/
def RunHasOutcome (s : State) (budget : Option Nat) : RunEnd → Prop
  | .halted => ∃ n, (∀ b, budget = some b → n < b) ∧ EndsAfter s n .halted
  | .faulted => ∃ n, (∀ b, budget = some b → n < b) ∧ EndsAfter s n .faulted
  | .abandoned => ∃ b, budget = some b ∧ StaysRunning s b
  | .diverges => budget = none ∧ Diverges s

/-- The caller's exit status: zero or not. The spec fixes no number for the failures (R100: "-1 (or equivalent non-zero)";
"a non-zero status" on FAULTED), so none is chosen (assumption 12). -/
inductive ExitStatus where
  | zero
  | nonZero
  deriving DecidableEq, Repr

/-- R100: exit 0 on a normal halt, non-zero on a fault. For an abandoned run the spec states no status, and a diverging one never exits. -/
def exitStatus : RunEnd → Option ExitStatus
  | .halted => some .zero
  | .faulted => some .nonZero
  | .abandoned => none
  | .diverges => none

end Sys2Proof.Machine.Caller
end

