-- ==== Sys2Proof/Machine/Pseudo.lean ====
section
/-! DEFINITION. The pseudo-instructions of 30_encoding.md R64 and R65: expansions into SUBLEQ, no opcodes of their own (R66).
`z` is the address of the zero cell, `p` the address of the expansion's first cell. -/

namespace Sys2Proof.Machine.Pseudo

/-- NOP at p: `Z Z next`. -/
def nop (z : Int) (p : Int) : Instr := .subleq z z (p + 3)

/-- JMP t: `Z Z t`. -/
def jmp (z t : Int) : Instr := .subleq z z t

/-- HALT: `Z Z -1`. -/
def halt (z : Int) : Instr := .subleq z z (-1)

/-- BLEZ x, t: `Z x t`. -/
def blez (z x t : Int) : Instr := .subleq z x t

/-- CLR x at p: `x x next`. -/
def clr (x : Int) (p : Int) : Instr := .subleq x x (p + 3)

/-- SUB x, y at p: `x y next`. -/
def sub (x y : Int) (p : Int) : Instr := .subleq x y (p + 3)

/-- ADD x, y at p: `x Z next` / `Z y next` / `Z Z next`. -/
def add (z x y : Int) (p : Int) : List Instr := [sub x z p, sub z y (p + 3), sub z z (p + 6)]

/-- MOV x, y at p: `y y next` / `x Z next` / `Z y next` / `Z Z next`. -/
def mov (z x y : Int) (p : Int) : List Instr := [sub y y p, sub x z (p + 3), sub z y (p + 6), sub z z (p + 9)]

/-- The instructions of an expansion one after another, as long as the machine is RUNNING (R68). DESIGN CHOICE: no fetch
stands between them (assumption 16), so this is a run of a program in memory only where the expansion lies at PC and writes
none of its own cells (`LiesAt`, `FallsThrough`, `SparesCells`). -/
def execSeq : List Instr → State → Host.Outcome State Fault Refusal
  | [], s => .next s
  | i :: is, s =>
    match s.runState with
    | .halted => .next s
    | .faulted => .next s
    | .running =>
      match exec i s with
      | .next t => execSeq is t
      | .fault f => .fault f
      | .refused r => .refused r

/-- The instructions lie one after another in the valid range, the first at address p (R53). -/
def LiesAt (s : State) (p : Int) : List Instr → Prop
  | [] => True
  | .subleq a b c :: is =>
    (0 ≤ p ∧ s.fetchCell p.toNat = some a ∧ s.fetchCell (p.toNat + 1) = some b ∧ s.fetchCell (p.toNat + 2) = some c) ∧
      LiesAt s (p + 3) is

/-- The c of each instruction is the address after it, as in the expansions of R65. -/
def FallsThrough (p : Int) : List Instr → Prop
  | [] => True
  | .subleq _ _ c :: is => c = p + 3 ∧ FallsThrough (p + 3) is

/-- No instruction has its b among the cells lo .. hi - 1. -/
def SparesCells (lo hi : Int) : List Instr → Prop
  | [] => True
  | .subleq _ b _ :: is => (b < lo ∨ hi ≤ b) ∧ SparesCells lo hi is

end Sys2Proof.Machine.Pseudo
end

