-- ==== Sys2Proof/Certificates/Slice0/Obligations.lean ====
section
/-! DEFINITION. The statements for the provers. They hold for every configuration SUBLEQ(W, K, OVF) unless a premise says
otherwise: the parameters are in `s.cfg` (assumption 1). -/

open Sys2Proof Sys2Proof.Machine

/-! ### Reset and the invariant -/

/-- R119: the power-on state, that LOAD([], 0) gives the same but for the latch (whose value is not architectural, R30), and
that a STEP there halts at once. -/
def Obligations.PowerOnStateIsEmptyAndItsStepHalts : Prop :=
  State.reset.size = 0 ∧ State.reset.pc = 0 ∧ State.reset.runState = .running ∧
  State.reset.faultCause = .none ∧ State.reset.faultAddr = 0 ∧ State.reset.snapshot = [] ∧
  (∃ t, transact (.load [] 0) State.reset = .next (t, .loadOk) ∧
    { t with latch := State.reset.latch } = State.reset) ∧
  step State.reset = .next { State.reset with runState := .halted }

/-- The invariant holds at reset. -/
def Obligations.ResetStateSatisfiesTheInvariant : Prop := State.reset.Inv

/-- Every step keeps the invariant: cells and registers in their widths (R17, R20, R25), SIZE at most K (R18), memory in its
canonical form, and the fault record in agreement with RUN_STATE (R24, R108). From every state, reached or not. -/
def Obligations.EveryStepKeepsTheInvariant : Prop :=
  ∀ s t : State, s.Inv → step s = .next t → t.Inv

/-- Every transaction, from every state that meets the invariant, reached or not, leaves a state that meets it; and power-on,
in every legal configuration, meets it (R119). -/
def Obligations.EveryTransactionKeepsTheInvariant : Prop :=
  (∀ (tx : Transaction) (s t : State) (reply : Reply), s.Inv → transact tx s = .next (t, reply) → t.Inv) ∧
  (∀ cfg : Config, cfg.Legal → (loadedState cfg [] 0).Inv)

/-- Every state a host can reach from power-on by any transactions satisfies the invariant, in every legal configuration. -/
def Obligations.ReachableStatesSatisfyTheInvariant : Prop :=
  ∀ (cfg : Config) (s : State), cfg.Legal → Reachable cfg s → s.Inv ∧ s.cfg = cfg

/-- No transaction changes the parameters (the model keeps them in State: assumption 1). -/
def Obligations.NoTransactionChangesTheParameters : Prop :=
  ∀ (tx : Transaction) (s t : State) (reply : Reply), transact tx s = .next (t, reply) → t.cfg = s.cfg

/-! ### Arithmetic and encoding -/

/-- R12's definition of `wrap_W`: the unique integer of the W-bit range congruent to x modulo 2^W. -/
def Obligations.WrapIsTheUniqueFittingCongruentValue : Prop :=
  ∀ (W : Nat) (x y : Int), 2 ≤ W → (y = wrapW W x ↔ Fits W y ∧ ∃ k : Int, y = x + k * 2 ^ W)

/-- Words written out from R53 and R54 at W = 32: cell A in the first 32 bits, then B, then C (the numbering of the cells'
bits in one word is the host's: assumption 9). -/
def Obligations.WrittenOutWordsDecodeToTheirTriples : Prop :=
  decodeTableWord 96 0x00000003_00000001_00000001 = some (.subleq 1 1 3) ∧
  decodeTableWord 96 0xFFFFFFFF_0000000E_0000000C = some (.subleq 12 14 (-1)) ∧
  decodeTableWord 96 0x7FFFFFFF_80000000_FFFFFFFE = some (.subleq (-2) (-2147483648) 2147483647)

/-- Every field of every well-formed instruction survives encoding and decoding, at every width. -/
def Obligations.DecodeOfEncodeIsTheInstruction : Prop :=
  ∀ (W : Nat) (i : Instr), 2 ≤ W → i.wf W = true →
    encodeWord W i < 2 ^ (3 * W) ∧ decodeWord W (encodeWord W i) = .ok (i, [])

/-- R55: every pattern of three cells is an instruction, and no bit of it is dropped. -/
def Obligations.EveryPatternIsOneInstruction : Prop :=
  ∀ (W w : Nat), 2 ≤ W → w < 2 ^ (3 * W) →
    ∃ i : Instr, decodeWord W w = .ok (i, []) ∧ i.wf W = true ∧ encodeWord W i = w

/-- A table word placed where the machine fetches is what the next step runs, from power-on (the placing stands for a LOAD
and the bit numbering is the host's: assumptions 8 and 9). -/
def Obligations.PlacedWordIsTheNextInstructionRun : Prop :=
  ∀ w : Nat, w < 2 ^ 96 → ∃ i : Instr, decodeTableWord 96 w = some i ∧
    (State.reset.withFetchWord 96 w).pc = 0 ∧
    step (State.reset.withFetchWord 96 w) = exec i ((State.reset.withFetchWord 96 w).latchInstr i)

/-! ### Memory -/

/-- R37: MemRead returns the cell, after growing exactly to it when it lies beyond SIZE, and changes nothing else. -/
def Obligations.MemReadGrowsThenReturnsTheCell : Prop :=
  ∀ (s : State) (x : Nat),
    (s.memRead x).2.fetchCell x = some (s.memRead x).1 ∧
    (x < s.size → (s.memRead x).2 = s ∧ s.fetchCell x = some (s.memRead x).1) ∧
    (s.size ≤ x → (s.memRead x).2 = s.grow x ∧ (s.memRead x).1 = 0)

/-- R38: MemWrite stores the value, after growing exactly to the cell when it lies beyond SIZE, and changes no other cell
and no register; after a MemRead of the same cell it never grows. -/
def Obligations.MemWriteStoresTheValueAndNothingElse : Prop :=
  ∀ (s : State) (x : Nat) (v : Int), Memory.wf s.mem →
    (s.memWrite x v).fetchCell x = some v ∧
    (s.memWrite x v).size = max s.size (x + 1) ∧
    (∀ i, i ≠ x → i < s.size → (s.memWrite x v).fetchCell i = s.fetchCell i) ∧
    (∀ i, i ≠ x → s.size ≤ i → i < x → (s.memWrite x v).fetchCell i = some 0) ∧
    { s.memWrite x v with mem := s.mem, size := s.size } = s ∧
    ((s.memRead x).2.memWrite x v).size = (s.memRead x).2.size

/-- R39: Grow makes the cells SIZE .. x zero, keeps the cells below SIZE, and sets SIZE to x + 1. -/
def Obligations.GrowZeroFillsExactlyToTheAddress : Prop :=
  ∀ (s : State) (x : Nat), s.size ≤ x →
    (s.grow x).size = x + 1 ∧
    (∀ i, i < s.size → (s.grow x).fetchCell i = s.fetchCell i) ∧
    (∀ i, s.size ≤ i → i ≤ x → (s.grow x).fetchCell i = some 0) ∧
    { s.grow x with mem := s.mem, size := s.size } = s

/-- R40: no primitive and no step decreases SIZE, every cell that growth creates is 0 when it is created, and only LOAD can
set SIZE lower. -/
def Obligations.MemoryNeverShrinksAndGrowsWithZeros : Prop :=
  (∀ (s : State) (x : Nat), s.size ≤ (s.memRead x).2.size ∧
    ∀ i, s.size ≤ i → i < (s.memRead x).2.size → (s.memRead x).2.fetchCell i = some 0) ∧
  (∀ (s : State) (x : Nat) (v : Int), Memory.wf s.mem → s.size ≤ (s.memWrite x v).size ∧
    ∀ i, i ≠ x → s.size ≤ i → i < (s.memWrite x v).size → (s.memWrite x v).fetchCell i = some 0) ∧
  (∀ s t : State, step s = .next t → s.size ≤ t.size) ∧
  (∀ (tx : Transaction) (s t : State) (reply : Reply), transact tx s = .next (t, reply) → t.size < s.size →
    ∃ image entry, tx = .load image entry ∧ reply = .loadOk)

/-- R41: SIZE after an executing step with operands A and B, the zeros of the new cells, and that a faulting or halting step
leaves SIZE. -/
def Obligations.ExecutingStepGrowsExactlyToItsOperands : Prop :=
  ∀ s t : State, Memory.wf s.mem → s.runState = .running → step s = .next t →
    (∀ a b c : Int, s.TripleAtPc a b c → t.runState = .running →
      t.size = max s.size (max (a.toNat + 1) (b.toNat + 1)) ∧
      ∀ i, s.size ≤ i → i < t.size → i ≠ b.toNat → t.fetchCell i = some 0) ∧
    (t.runState ≠ .running → t.size = s.size)

/-- R42 and the read ports R90 to R94: the value each returns, and that none changes the state. -/
def Obligations.ReadPortsReturnTheStateUnchanged : Prop :=
  ∀ s : State,
    transact .readStatus s = .next (s, .status s.runState.code) ∧
    transact .readPc s = .next (s, .pc s.pc) ∧
    transact .readSize s = .next (s, .size s.size) ∧
    transact .readFault s = .next (s, .faultRecord s.faultCause.code s.faultAddr) ∧
    ∃ cells : List Int, transact .snapshot s = .next (s, .cells cells) ∧ cells.length = s.size ∧
      ∀ i, i < s.size → cells[i]? = s.fetchCell i

/-- R45: a repeated MemRead gives the same value and changes nothing more. -/
def Obligations.RepeatedMemReadIsIdempotent : Prop :=
  ∀ (s : State) (x : Nat), (s.memRead x).2.memRead x = s.memRead x

/-- R49, I8: reading A before B gives the same values and the same state as the model's B before A. -/
def Obligations.OrderOfOperandReadsIsUnobservable : Prop :=
  ∀ (s : State) (a b : Int),
    (readOperands s a b).va = (s.memRead a.toNat).1 ∧
    (readOperands s a b).vb = ((s.memRead a.toNat).2.memRead b.toNat).1 ∧
    (readOperands s a b).after = ((s.memRead a.toNat).2.memRead b.toNat).2

/-- R52: the sparse representation shows nothing but SIZE and the cells: equal snapshots are equal memories. -/
def Obligations.EqualSnapshotsAreEqualMemories : Prop :=
  ∀ s t : State, s.Inv → t.Inv → s.snapshot = t.snapshot → s.mem = t.mem ∧ s.size = t.size

/-- R18: SIZE stays within 0 .. K, and only an accepted LOAD and the growth of an executing step write it. -/
def Obligations.SizeIsBoundedAndWrittenOnlyByLoadAndGrowth : Prop :=
  ∀ (tx : Transaction) (s t : State) (reply : Reply), s.Inv → transact tx s = .next (t, reply) →
    t.size ≤ t.cfg.capacity ∧
    (t.size ≠ s.size →
      (∃ image entry, tx = .load image entry ∧ reply = .loadOk ∧ t.size = image.length) ∨
      (tx = .step ∧ s.runState = .running ∧ t.runState = .running ∧ s.size < t.size))

/-- R20: the values PC is written with, and that they lie in [-2^(W-1), 2^(W-1)]. -/
def Obligations.PcTakesOnlyTheListedValues : Prop :=
  ∀ (tx : Transaction) (s t : State) (reply : Reply), s.Inv → transact tx s = .next (t, reply) →
    t.PcInRange ∧
    (t.pc ≠ s.pc →
      (∃ image, tx = .load image t.pc ∧ reply = .loadOk) ∨
      (tx = .step ∧ ∃ a b c, s.TripleAtPc a b c ∧ (t.pc = c ∨ t.pc = s.pc + 3)))

/-- R22: the encoding of RUN_STATE; the reserved value 3 stands for no state. -/
def Obligations.RunStateEncodingReservesThree : Prop :=
  RunState.running.code = 0 ∧ RunState.halted.code = 1 ∧ RunState.faulted.code = 2 ∧
  (∀ r : RunState, RunState.ofCode r.code = some r) ∧ RunState.ofCode 3 = none ∧ (∀ r : RunState, r.code ≠ 3)

/-! ### The step -/

/-- R102: from every state a step ends in a next state; in RUNNING it executes, halts or faults, and there is no other event. -/
def Obligations.EveryStepExecutesHaltsOrFaults : Prop :=
  ∀ s : State, ∃ t, step s = .next t ∧
    (s.runState = .running →
      (t.runState = .running ∧ ¬ s.PcOutOfRange) ∨
      (t.runState = .halted ∧ s.PcOutOfRange) ∨
      (t.runState = .faulted ∧ ¬ s.PcOutOfRange ∧ t.faultCause ≠ .none))

/-- R68: a STEP in HALTED or FAULTED changes nothing and returns the current RUN_STATE. -/
def Obligations.StepInATerminalStateDoesNothing : Prop :=
  ∀ s : State, s.runState ≠ .running →
    step s = .next s ∧ transact .step s = .next (s, .status s.runState.code)

/-- R69, R71: in RUNNING a step halts exactly when PC < 0 or PC + 2 >= SIZE, and the halt writes RUN_STATE only. -/
def Obligations.HaltsExactlyWhenTheFetchFails : Prop :=
  ∀ s : State, s.runState = .running →
    (s.PcOutOfRange → step s = .next { s with runState := .halted }) ∧
    (∀ t, step s = .next t → (t.runState = .halted ↔ s.PcOutOfRange))

/-- R70: a step whose fetch succeeds latches the triple at PC and executes the instruction it decodes to; the latch keeps
the fetched values whatever the step writes (that it still holds them between steps is the model's choice: assumption 5). -/
def Obligations.StepExecutesTheDecodedTripleAtPc : Prop :=
  ∀ (s : State) (a b c : Int) (i : Instr), s.runState = .running → s.TripleAtPc a b c →
    decode [a, b, c] = .ok (i, []) →
    step s = exec i { s with latch := ⟨a, b, c⟩ } ∧
    ∀ t, step s = .next t → t.latch = ⟨a, b, c⟩

/-- R75 and R76, completion and result: when both operand addresses lie in memory and the subtraction raises no OVERFLOW,
SUBLEQ answers a next state with the difference in MEM[b], PC at c if it is <= 0 and at PC + 3 otherwise. -/
def Obligations.SubleqStoresTheDifferenceAndBranches : Prop :=
  ∀ (s : State) (a b c r : Int), s.cfg.Legal → Memory.wf s.mem → OperandsInMemory s.cfg a b →
    NoOverflow s.cfg (s.operand b) (s.operand a) →
    r = wrapW s.cfg.cellBits (s.operand b - s.operand a) →
    ∃ t, exec (.subleq a b c) s = .next t ∧ t.fetchCell b.toNat = some r ∧
      t.pc = (if r ≤ 0 then c else s.pc + 3) ∧
      t.size = max s.size (max (a.toNat + 1) (b.toNat + 1)) ∧ t.runState = s.runState

/-- The frame of an executed SUBLEQ: the only cell written is b, read through MemRead; the valid cells other than b are
kept, and no register but PC and SIZE changes. -/
def Obligations.SubleqChangesOnlyItsDestinationSizeAndPc : Prop :=
  ∀ (s t : State) (a b c : Int), Memory.wf s.mem → OperandsInMemory s.cfg a b →
    NoOverflow s.cfg (s.operand b) (s.operand a) → exec (.subleq a b c) s = .next t →
    (∀ x, x ≠ b.toNat → (t.memRead x).1 = (s.memRead x).1) ∧
    (∀ x, x ≠ b.toNat → x < s.size → t.fetchCell x = s.fetchCell x) ∧
    { t with mem := s.mem, size := s.size, pc := s.pc } = s

/-- R74: the range of the exact difference, the result when it fits, and what happens in each overflow mode when it does
not. -/
def Obligations.OverflowWrapsOrFaultsByMode : Prop :=
  ∀ (s : State) (a b c : Int), s.cfg.Legal → Memory.wf s.mem → OperandsInMemory s.cfg a b →
    (s.CellsInRange → -((2 : Int) ^ s.cfg.cellBits - 1) ≤ s.operand b - s.operand a ∧
      s.operand b - s.operand a ≤ (2 : Int) ^ s.cfg.cellBits - 1) ∧
    (Fits s.cfg.cellBits (s.operand b - s.operand a) →
      ∃ t, exec (.subleq a b c) s = .next t ∧ t.fetchCell b.toNat = some (s.operand b - s.operand a)) ∧
    (¬ Fits s.cfg.cellBits (s.operand b - s.operand a) → s.cfg.overflow = .wrap →
      ∃ t, exec (.subleq a b c) s = .next t ∧
        t.fetchCell b.toNat = some (wrapW s.cfg.cellBits (s.operand b - s.operand a))) ∧
    (¬ Fits s.cfg.cellBits (s.operand b - s.operand a) → s.cfg.overflow = .fault →
      exec (.subleq a b c) s =
        .next { s with runState := .faulted, faultCause := .overflow, faultAddr := b })

/-! ### Faults -/

/-- R105: a negative operand raises NEG_ADDR with that value in FAULT_ADDR; B is looked at when A passes its checks (R72). -/
def Obligations.NegativeOperandAddressFaults : Prop :=
  ∀ (s : State) (a b c : Int),
    (a < 0 → exec (.subleq a b c) s =
      .next { s with runState := .faulted, faultCause := .negAddr, faultAddr := a }) ∧
    (0 ≤ a → a < s.cfg.capacity → b < 0 → exec (.subleq a b c) s =
      .next { s with runState := .faulted, faultCause := .negAddr, faultAddr := b })

/-- R106: an operand at or above K raises CAP_EXCEEDED with that value in FAULT_ADDR, and with K = 2^(W-1) no W-bit operand
can. -/
def Obligations.OperandAddressAtOrAboveCapacityFaults : Prop :=
  (∀ (s : State) (a b c : Int),
    (0 ≤ a → s.cfg.capacity ≤ a → exec (.subleq a b c) s =
      .next { s with runState := .faulted, faultCause := .capExceeded, faultAddr := a }) ∧
    (0 ≤ a → a < s.cfg.capacity → 0 ≤ b → s.cfg.capacity ≤ b → exec (.subleq a b c) s =
      .next { s with runState := .faulted, faultCause := .capExceeded, faultAddr := b })) ∧
  (∀ (s t : State) (i : Instr), s.cfg.capacity = half s.cfg.cellBits → i.wf s.cfg.cellBits = true →
    s.faultCause ≠ .capExceeded → exec i s = .next t → t.faultCause ≠ .capExceeded)

/-- R107: OVERFLOW is raised exactly when OVF = FAULT and the difference does not fit, with B in FAULT_ADDR; never under
WRAP. -/
def Obligations.OverflowFaultOnlyInFaultMode : Prop :=
  ∀ (s t : State) (a b c : Int), s.runState = .running → OperandsInMemory s.cfg a b →
    exec (.subleq a b c) s = .next t →
    (t.runState = .faulted ↔
      s.cfg.overflow = .fault ∧ ¬ Fits s.cfg.cellBits (s.operand b - s.operand a)) ∧
    (t.runState = .faulted → t.faultCause = .overflow ∧ t.faultAddr = b)

/-- R109: the first condition that holds, in the order of the rule, decides the outcome and the fault record. -/
def Obligations.FirstFailingCheckDecidesTheOutcome : Prop :=
  ∀ (s t : State), step s = .next t →
    (s.runState ≠ .running →
      t.runState = s.runState ∧ t.faultCause = s.faultCause ∧ t.faultAddr = s.faultAddr) ∧
    (s.runState = .running → s.PcOutOfRange →
      t.runState = .halted ∧ t.faultCause = s.faultCause ∧ t.faultAddr = s.faultAddr) ∧
    (∀ a b c : Int, s.runState = .running → s.TripleAtPc a b c →
      (t.runState, t.faultCause, t.faultAddr) =
        if a < 0 then (.faulted, .negAddr, a)
        else if s.cfg.capacity ≤ a then (.faulted, .capExceeded, a)
        else if b < 0 then (.faulted, .negAddr, b)
        else if s.cfg.capacity ≤ b then (.faulted, .capExceeded, b)
        else if s.cfg.overflow = .fault ∧ ¬ Fits s.cfg.cellBits (s.operand b - s.operand a) then
          (.faulted, .overflow, b)
        else (.running, s.faultCause, s.faultAddr))

/-- R104: a step that faults leaves MEM, SIZE and PC as they were, writes RUN_STATE, FAULT_CAUSE and FAULT_ADDR, and FAULTED
is terminal. (The internal latch, which no port reads, is written by the fetch: R70.) -/
def Obligations.FaultsArePreciseAndTerminal : Prop :=
  ∀ s t : State, s.runState = .running → step s = .next t → t.runState = .faulted →
    (∃ (cause : FaultCause) (addr : Int) (l : Latch), cause ≠ .none ∧
      t = { s with runState := .faulted, faultCause := cause, faultAddr := addr, latch := l }) ∧
    step t = .next t

/-- R24: the encoding of FAULT_CAUSE, that only LOAD (writing NONE) and a raised fault write it, and that it is non-zero
exactly in FAULTED. -/
def Obligations.FaultCauseIsNonzeroExactlyWhenFaulted : Prop :=
  FaultCause.none.code = 0 ∧ FaultCause.negAddr.code = 1 ∧ FaultCause.capExceeded.code = 2 ∧
  FaultCause.overflow.code = 3 ∧
  (∀ (cfg : Config) (s : State), cfg.Legal → Reachable cfg s →
    (s.faultCause.code ≠ 0 ↔ s.runState = .faulted)) ∧
  (∀ (tx : Transaction) (s t : State) (reply : Reply), transact tx s = .next (t, reply) →
    t.faultCause ≠ s.faultCause →
    (reply = .loadOk ∧ t.faultCause = .none) ∨
    (tx = .step ∧ s.runState = .running ∧ t.runState = .faulted))

/-- R23: the only ways RUN_STATE changes. -/
def Obligations.RunStateChangesOnlyAsListed : Prop :=
  ∀ (tx : Transaction) (s t : State) (reply : Reply), transact tx s = .next (t, reply) →
    (tx = .step ∧ s.runState = .running ∧
      ((t.runState = .running ∧ ∃ a b c, s.TripleAtPc a b c) ∨
       (t.runState = .halted ∧ s.PcOutOfRange) ∨
       (t.runState = .faulted ∧ t.faultCause ≠ .none))) ∨
    (tx = .step ∧ s.runState ≠ .running ∧ t = s) ∨
    (∃ image entry, tx = .load image entry ∧ reply = .loadOk ∧ t.runState = .running) ∨
    (tx ≠ .step ∧ t = s)

/-- R111: nothing but an accepted LOAD leaves HALTED or FAULTED, and no fault occurs in FAULTED. -/
def Obligations.OnlyLoadLeavesHaltedOrFaulted : Prop :=
  ∀ (tx : Transaction) (s t : State) (reply : Reply), s.runState ≠ .running →
    transact tx s = .next (t, reply) →
    (∃ image entry, tx = .load image entry ∧ reply = .loadOk ∧ t.runState = .running) ∨ t = s

/-! ### LOAD -/

/-- R87: an accepted LOAD sets every element of the state from its arguments, whatever the state was (the latch, which is
not architectural, apart), and no other transaction leaves HALTED or FAULTED. -/
def Obligations.LoadReplacesTheWholeState : Prop :=
  ∀ (s : State) (image : List Int) (entry : Int),
    image.length ≤ s.cfg.capacity → (∀ v ∈ image, Fits s.cfg.cellBits v) → Fits s.cfg.cellBits entry →
    ∃ t, transact (.load image entry) s = .next (t, .loadOk) ∧
      t.size = image.length ∧ (∀ i, t.fetchCell i = image[i]?) ∧ t.pc = entry ∧
      t.runState = .running ∧ t.faultCause = .none ∧ t.faultAddr = 0 ∧
      ∀ s' : State, s'.cfg = s.cfg →
        (∃ t', transact (.load image entry) s' = .next (t', .loadOk) ∧ { t' with latch := t.latch } = t) ∧
        ∀ (tx : Transaction) (u : State) (reply : Reply), s'.runState ≠ .running →
          transact tx s' = .next (u, reply) → u.runState = .running → ∃ im en, tx = .load im en

/-- R88: LOAD is refused, with no change of state, exactly when the image is longer than K or a value does not fit; an entry
outside the image is accepted, and the first STEP then halts. -/
def Obligations.LoadRefusesOversizedOrUnfittingImages : Prop :=
  ∀ (s : State) (image : List Int) (entry : Int),
    (transact (.load image entry) s = .next (s, .loadRefused) ↔
      s.cfg.capacity < image.length ∨ (∃ v ∈ image, ¬ Fits s.cfg.cellBits v) ∨ ¬ Fits s.cfg.cellBits entry) ∧
    (∀ t, transact (.load image entry) s = .next (t, .loadOk) → entry < 0 ∨ image.length ≤ entry →
      step t = .next { t with runState := .halted })

/-! ### Corner cases -/

/-- R79: with a = b the step stores 0 and always jumps to c, in both overflow modes. -/
def Obligations.EqualOperandsClearTheCellAndJump : Prop :=
  ∀ (s : State) (a c : Int), Memory.wf s.mem → OperandsInMemory s.cfg a a →
    ∃ t, exec (.subleq a a c) s = .next t ∧ t.fetchCell a.toNat = some 0 ∧ t.pc = c ∧
      t.runState = s.runState

/-- R125: a step that writes one of its own cells branches to the latched c and reads the latched addresses; a fetch of the
same cells by the next step sees the new value. -/
def Obligations.OwnCellsWrittenTakeEffectOnlyAtALaterFetch : Prop :=
  ∀ (s t : State) (a b c r : Int), s.Inv → s.runState = .running → s.TripleAtPc a b c →
    b = s.pc ∨ b = s.pc + 1 ∨ b = s.pc + 2 →
    r = wrapW s.cfg.cellBits (s.operand b - s.operand a) →
    step s = .next t → t.runState = .running →
    t.fetchCell b.toNat = some r ∧ t.pc = (if r ≤ 0 then c else s.pc + 3) ∧
    (t.pc = s.pc → t.fetchInstr = some (.subleq (if b = s.pc then r else a)
      (if b = s.pc + 1 then r else b) (if b = s.pc + 2 then r else c)))

/-- R126: the fetch of the next step sees the cell written by this step, and the old contents of every other cell. -/
def Obligations.NextFetchSeesTheWriteOfThisStep : Prop :=
  ∀ (s t : State) (a b c r a' b' c' : Int), s.Inv → s.runState = .running → s.TripleAtPc a b c →
    r = wrapW s.cfg.cellBits (s.operand b - s.operand a) →
    step s = .next t → t.runState = .running → t.fetchInstr = some (.subleq a' b' c') →
    a' = (if t.pc = b then r else s.operand t.pc) ∧
    b' = (if t.pc + 1 = b then r else s.operand (t.pc + 1)) ∧
    c' = (if t.pc + 2 = b then r else s.operand (t.pc + 2))

/-- A jump to a negative address, or to one from which no whole triple is valid, halts at the next step, whatever growth
that instruction could have caused (R81). -/
def Obligations.TakenBranchOutOfRangeHaltsAtTheNextStep : Prop :=
  ∀ (s t : State) (a b c r : Int), s.cfg.Legal → Memory.wf s.mem → s.runState = .running →
    OperandsInMemory s.cfg a b → NoOverflow s.cfg (s.operand b) (s.operand a) →
    r = wrapW s.cfg.cellBits (s.operand b - s.operand a) → r ≤ 0 →
    c < 0 ∨ (t.size : Int) ≤ c + 2 → exec (.subleq a b c) s = .next t →
    t.runState = .running ∧ step t = .next { t with runState := .halted } ∧
    t.fetchCell b.toNat = some r

/-- R82: the result corners at W = 32, in both overflow modes. -/
def Obligations.ResultCornersAtThirtyTwoBits : Prop :=
  ∀ (s : State) (a b c : Int), s.cfg.cellBits = 32 → Memory.wf s.mem → OperandsInMemory s.cfg a b →
    (∀ vb va r next : Int, s.operand b = vb → s.operand a = va →
      (s.cfg.overflow = .wrap ∧
        ((vb = -2147483648 ∧ va = 1 ∧ r = 2147483647 ∧ next = s.pc + 3) ∨
         (vb = 0 ∧ va = -2147483648 ∧ r = -2147483648 ∧ next = c) ∨
         (vb = 2147483647 ∧ va = -1 ∧ r = -2147483648 ∧ next = c))) ∨
      (vb = -2147483648 ∧ va = -2147483648 ∧ r = 0 ∧ next = c) ∨
      (vb - va = 0 ∧ r = 0 ∧ next = c) ∨ (vb - va = 1 ∧ r = 1 ∧ next = s.pc + 3) →
      ∃ t, exec (.subleq a b c) s = .next t ∧ t.fetchCell b.toNat = some r ∧ t.pc = next) ∧
    (s.cfg.overflow = .fault →
      (s.operand b = -2147483648 ∧ s.operand a = 1) ∨ (s.operand b = 0 ∧ s.operand a = -2147483648) ∨
        (s.operand b = 2147483647 ∧ s.operand a = -1) →
      exec (.subleq a b c) s =
        .next { s with runState := .faulted, faultCause := .overflow, faultAddr := b })

/-- The last sentences of R127: a triple of zeros, as growth leaves it, clears MEM[0] and jumps to address 0. -/
def Obligations.TripleOfZerosClearsCellZeroAndJumpsThere : Prop :=
  ∀ s : State, Memory.wf s.mem → 0 < s.cfg.capacity → s.runState = .running → s.TripleAtPc 0 0 0 →
    ∃ t, step s = .next t ∧ t.runState = .running ∧ t.pc = 0 ∧ t.fetchCell 0 = some 0 ∧ t.size = s.size ∧
      ∀ i, i ≠ 0 → t.fetchCell i = s.fetchCell i

/-! ### Pseudo-instructions -/

/-- R64: the five one-instruction expansions. -/
def Obligations.OneInstructionPseudosHaveTheirEffects : Prop :=
  ∀ (s : State) (z x target : Int), s.Inv → s.runState = .running → OperandsInMemory s.cfg z x →
    (s.fetchCell z.toNat = some 0 → exec (Pseudo.nop z s.pc) s = .next { s with pc := s.pc + 3 }) ∧
    (∃ t, exec (Pseudo.jmp z target) s = .next t ∧ t.pc = target ∧ t.fetchCell z.toNat = some 0) ∧
    (∃ t, exec (Pseudo.halt z) s = .next t ∧ t.pc = -1 ∧ t.fetchCell z.toNat = some 0 ∧
      step t = .next { t with runState := .halted }) ∧
    (s.operand z = 0 → ∃ t, exec (Pseudo.blez z x target) s = .next t ∧
      t.pc = (if s.operand x ≤ 0 then target else s.pc + 3) ∧ t.operand x = s.operand x) ∧
    (∃ t, exec (Pseudo.clr x s.pc) s = .next t ∧ t.pc = s.pc + 3 ∧ t.fetchCell x.toNat = some 0)

/-- The ADD expansion of R65: MEM[y] <- MEM[y] + MEM[x] (x may be y), with Z zero before and after, whenever OVF = WRAP or
the negated addend and the sum both fit. The instructions run by `Pseudo.execSeq`, with no fetch in between: the model's
DESIGN CHOICE (assumption 16), unsafe read as a claim about an expansion in memory that overwrites its own cells;
`ExpansionInMemoryRunsAsItsInstructionsInOrder` says when a program in memory does the same. -/
def Obligations.AddExpansionAdds : Prop :=
  ∀ (s : State) (z x y : Int), s.Inv → s.runState = .running → OperandsInMemory s.cfg z x →
    OperandsInMemory s.cfg z y → x ≠ z → y ≠ z → s.operand z = 0 →
    s.cfg.overflow = .wrap ∨
      (Fits s.cfg.cellBits (0 - s.operand x) ∧ Fits s.cfg.cellBits (s.operand y + s.operand x)) →
    ∃ t, Pseudo.execSeq (Pseudo.add z x y s.pc) s = .next t ∧ t.runState = .running ∧ t.pc = s.pc + 9 ∧
      t.fetchCell y.toNat = some (wrapW s.cfg.cellBits (s.operand y + s.operand x)) ∧
      t.fetchCell z.toNat = some 0 ∧
      ∀ i : Nat, i ≠ y.toNat → i ≠ z.toNat → t.operand i = s.operand i

/-- The MOV expansion of R65: MEM[y] <- MEM[x], for x, y and Z all different, with Z zero before and after, whenever
OVF = WRAP or the negated value fits. By `Pseudo.execSeq`: the model's DESIGN CHOICE (assumption 16), unsafe read as a claim
about an expansion in memory that overwrites its own cells. -/
def Obligations.MovExpansionCopies : Prop :=
  ∀ (s : State) (z x y : Int), s.Inv → s.runState = .running → OperandsInMemory s.cfg z x →
    OperandsInMemory s.cfg z y → x ≠ y → x ≠ z → y ≠ z → s.operand z = 0 →
    s.cfg.overflow = .wrap ∨ Fits s.cfg.cellBits (0 - s.operand x) →
    ∃ t, Pseudo.execSeq (Pseudo.mov z x y s.pc) s = .next t ∧ t.runState = .running ∧ t.pc = s.pc + 12 ∧
      t.fetchCell y.toNat = some (s.operand x) ∧ t.fetchCell z.toNat = some 0 ∧
      ∀ i : Nat, i ≠ y.toNat → i ≠ z.toNat → t.operand i = s.operand i

/-- ADD and MOV fault under OVF = FAULT when MEM[x] = -2^(W-1), whose negation does not fit (R65), for x and y other than Z:
ADD also when x = y, MOV when x is not y. By `Pseudo.execSeq`: the model's DESIGN CHOICE (assumption 16), unsafe read as a
claim about an expansion in memory that overwrites its own cells. -/
def Obligations.AddAndMovFaultOnTheLeastValue : Prop :=
  ∀ (s : State) (z x y : Int), s.Inv → s.runState = .running → OperandsInMemory s.cfg z x →
    OperandsInMemory s.cfg z y → x ≠ z → y ≠ z → s.operand z = 0 → s.cfg.overflow = .fault →
    s.operand x = -(half s.cfg.cellBits : Int) →
    (∃ t, Pseudo.execSeq (Pseudo.add z x y s.pc) s = .next t ∧
      t.runState = .faulted ∧ t.faultCause = .overflow ∧ t.faultAddr = z) ∧
    (x ≠ y → ∃ t, Pseudo.execSeq (Pseudo.mov z x y s.pc) s = .next t ∧
      t.runState = .faulted ∧ t.faultCause = .overflow ∧ t.faultAddr = z)

/-- The other sentences of R65: ADD faults under OVF = FAULT at y when the sum does not fit (x may be y), and MOV x, x clears
MEM[x] in both modes, which is why MOV asks that x is not y. By `Pseudo.execSeq`: the model's DESIGN CHOICE (assumption 16),
unsafe read as a claim about an expansion in memory that overwrites its own cells. -/
def Obligations.AddFaultsOnAnUnfittingSumAndMovOntoItselfClears : Prop :=
  ∀ (s : State) (z x y : Int), s.Inv → s.runState = .running → OperandsInMemory s.cfg z x →
    OperandsInMemory s.cfg z y → x ≠ z → y ≠ z → s.operand z = 0 →
    (s.cfg.overflow = .fault → Fits s.cfg.cellBits (0 - s.operand x) →
      ¬ Fits s.cfg.cellBits (s.operand y + s.operand x) →
      ∃ t, Pseudo.execSeq (Pseudo.add z x y s.pc) s = .next t ∧
        t.runState = .faulted ∧ t.faultCause = .overflow ∧ t.faultAddr = y) ∧
    (∃ t, Pseudo.execSeq (Pseudo.mov z x x s.pc) s = .next t ∧ t.runState = .running ∧ t.pc = s.pc + 12 ∧
      t.fetchCell x.toNat = some 0 ∧ t.fetchCell z.toNat = some 0 ∧
      ∀ i : Nat, i ≠ x.toNat → i ≠ z.toNat → t.operand i = s.operand i)

/-- The SUB row of R65: MEM[y] <- MEM[y] - MEM[x], modulo 2^W under WRAP, and OVERFLOW at y under FAULT when the difference
does not fit. -/
def Obligations.SubExpansionSubtractsOrFaults : Prop :=
  ∀ (s : State) (x y : Int), s.Inv → s.runState = .running → OperandsInMemory s.cfg x y →
    (NoOverflow s.cfg (s.operand y) (s.operand x) →
      ∃ t, exec (Pseudo.sub x y s.pc) s = .next t ∧ t.runState = .running ∧ t.pc = s.pc + 3 ∧
        t.fetchCell y.toNat = some (wrapW s.cfg.cellBits (s.operand y - s.operand x)) ∧
        ∀ i : Nat, i ≠ y.toNat → t.operand i = s.operand i) ∧
    (¬ NoOverflow s.cfg (s.operand y) (s.operand x) →
      exec (Pseudo.sub x y s.pc) s =
        .next { s with runState := .faulted, faultCause := .overflow, faultAddr := y })

/-- When instructions that fall through lie at PC and write none of their own cells, that many steps of the machine, fetches
and all, leave what `Pseudo.execSeq` leaves (the latch apart). The premise of assumption 16, made exact: with it the
statements about ADD and MOV are about programs in memory. -/
def Obligations.ExpansionInMemoryRunsAsItsInstructionsInOrder : Prop :=
  ∀ (s : State) (is : List Instr), Memory.wf s.mem → s.runState = .running →
    Pseudo.LiesAt s s.pc is → Pseudo.FallsThrough s.pc is →
    Pseudo.SparesCells s.pc (s.pc + 3 * is.length) is →
    ∃ t u, run is.length s = .next t ∧ Pseudo.execSeq is s = .next u ∧ { t with latch := u.latch } = u

/-! ### Whole runs -/

/-- The last law of R85: with K = 2^(W-1) and OVF = WRAP, a run in which every executed operand address is non-negative
raises no fault. -/
def Obligations.UnboundedWrapRunsWithNonnegativeOperandsNeverFault : Prop :=
  ∀ (n : Nat) (s : State), s.Inv → s.runState ≠ .faulted →
    s.cfg.capacity = half s.cfg.cellBits → s.cfg.overflow = .wrap →
    (∀ k < n, ∀ u : State, run k s = .next u → u.runState = .running →
      ∀ a b c, u.TripleAtPc a b c → 0 ≤ a ∧ 0 ≤ b) →
    SafeRun n s

/-- R27: no rule reads the latch across steps. Changing it before a step changes nothing after an executing or faulting
step, and nothing but the latch itself after a halting or idle one. -/
def Obligations.LatchBetweenStepsInfluencesNothing : Prop :=
  ∀ (s t : State) (l : Latch), step s = .next t →
    (s.runState = .running → ¬ s.PcOutOfRange → step { s with latch := l } = .next t) ∧
    (s.runState ≠ .running ∨ s.PcOutOfRange → step { s with latch := l } = .next { t with latch := l })

/-- R85, determinism: what the ports show after a STEP depends only on what they showed before it and on W, K and OVF, not
on the latch or the representation of memory. -/
def Obligations.PortsAfterAStepDependOnlyOnPortsBefore : Prop :=
  ∀ s s' t t' : State, s.Inv → s'.Inv → s.cfg = s'.cfg → s.snapshot = s'.snapshot → s.pc = s'.pc →
    s.runState = s'.runState → s.faultCause = s'.faultCause → s.faultAddr = s'.faultAddr →
    step s = .next t → step s' = .next t' →
    t.snapshot = t'.snapshot ∧ t.size = t'.size ∧ t.pc = t'.pc ∧ t.runState = t'.runState ∧
      t.faultCause = t'.faultCause ∧ t.faultAddr = t'.faultAddr

/-- R130: the caller's report of a run: every one of the counted steps returned RUNNING, and the state reported is the one
the step after them (or, for an abandoned run, the last of them) leaves. -/
def Obligations.RunReportCountsTheExecutedInstructions : Prop :=
  ∀ (budget : Nat) (s : State), s.runState = .running →
    (∀ k ≤ (Caller.drive budget s).steps, ∃ u, run k s = .next u ∧ u.runState = .running) ∧
    ((Caller.drive budget s).ended = .halted →
      run ((Caller.drive budget s).steps + 1) s = .next (Caller.drive budget s).final ∧
      (Caller.drive budget s).final.runState = .halted) ∧
    ((Caller.drive budget s).ended = .faulted →
      run ((Caller.drive budget s).steps + 1) s = .next (Caller.drive budget s).final ∧
      (Caller.drive budget s).final.runState = .faulted) ∧
    ((Caller.drive budget s).ended = .abandoned →
      (Caller.drive budget s).steps = budget ∧
      run budget s = .next (Caller.drive budget s).final)

/-- R130, its four outcomes: from RUNNING, under a host that issues a number of STEPs or never stops, exactly one of them
holds; the report of `drive` names it for a host that stops; and for one that never stops the run diverges exactly when it is
still RUNNING at every budget (D25). -/
def Obligations.EveryRunHasExactlyOneOfTheFourOutcomes : Prop :=
  ∀ (s : State) (budget : Option Nat), s.runState = .running →
    (∃ e, Caller.RunHasOutcome s budget e ∧ ∀ e', Caller.RunHasOutcome s budget e' → e' = e) ∧
    (∀ b, budget = some b → Caller.RunHasOutcome s budget (Caller.drive b s).ended) ∧
    (budget = none →
      (Caller.RunHasOutcome s budget .diverges ↔ ∀ b, (Caller.drive b s).ended = .abandoned))

/-- Of the transactions a host issues after a LOAD, a run depends only on how many STEPs stand before the next LOAD: the
reads between them change nothing (R96), and the LOAD abandons it (R130; that a refused LOAD does so too is the model's
reading, assumption 18). -/
def Obligations.RunDependsOnlyOnTheStepsBeforeTheNextLoad : Prop :=
  ∀ (txs : List Transaction) (s : State), Caller.follow txs s = Caller.drive (Caller.stepsBeforeLoad txs) s
end

