-- ==== Sys2Proof/Laws/Word.lean ====
section
/-! SUPPORT. Laws of `half`, `Fits` and `wrapW` (00_scope.md R12). -/

namespace Sys2Proof

theorem half_pos (W : Nat) : 0 < half W := Nat.pow_pos (by decide)

theorem two_pow_eq_two_half {W : Nat} (h : 1 ≤ W) : 2 ^ W = 2 * half W := by
  obtain ⟨n, rfl⟩ : ∃ n, W = n + 1 := ⟨W - 1, by omega⟩
  simp [half, Nat.pow_succ, Nat.mul_comm]

theorem fits_zero (W : Nat) : Fits W 0 := by
  have := half_pos W
  unfold Fits; omega

theorem two_le_half {W : Nat} (h : 2 ≤ W) : 2 ≤ half W := by
  have : 2 ^ 1 ≤ 2 ^ (W - 1) := Nat.pow_le_pow_right (by decide) (by omega)
  simpa [half] using this

theorem fits_wrapW {W : Nat} (h : 1 ≤ W) (x : Int) : Fits W (wrapW W x) := by
  have hp := half_pos W
  have e := two_pow_eq_two_half h
  have hpos : 0 < 2 ^ W := by omega
  have l := Int.le_bmod (x := x) hpos
  have u := Int.bmod_lt (x := x) hpos
  unfold Fits wrapW
  rw [e] at l u ⊢
  omega

theorem wrapW_eq_add_mul (W : Nat) (x : Int) : ∃ k : Int, wrapW W x = x + k * (2 ^ W : Nat) := by
  obtain ⟨k, hk⟩ := Int.dvd_bmod_sub_self (x := x) (m := 2 ^ W)
  exact ⟨k, by rw [wrapW]; rw [Int.mul_comm]; omega⟩

theorem wrapW_of_fits {W : Nat} (h : 1 ≤ W) {x : Int} (hx : Fits W x) : wrapW W x = x := by
  have hp := half_pos W
  obtain ⟨l, u⟩ := hx
  unfold wrapW
  rw [two_pow_eq_two_half h]
  apply Int.bmod_eq_of_le <;> omega

theorem wrapW_add_mul (W : Nat) (x k : Int) : wrapW W (x + k * (2 ^ W : Nat)) = wrapW W x := by
  unfold wrapW
  exact Int.add_mul_bmod_self_right x k (2 ^ W)

end Sys2Proof
end

