-- ==== Sys2Proof/Laws/Decode.lean ====
section
/-! SUPPORT. Laws of the cell patterns behind decoding and encoding (30_encoding.md R54). -/

namespace Sys2Proof

theorem bitsOfCell_lt (W : Nat) (v : Int) : bitsOfCell W v < 2 ^ W := BitVec.isLt _

theorem cellOfBits_bitsOfCell {W : Nat} (h : 1 ≤ W) {v : Int} (hv : Fits W v) : cellOfBits W (bitsOfCell W v) = v := by
  unfold cellOfBits bitsOfCell
  rw [BitVec.ofNat_toNat, BitVec.setWidth_eq, BitVec.toInt_ofInt]
  exact wrapW_of_fits h hv

theorem bitsOfCell_cellOfBits (W w : Nat) : bitsOfCell W (cellOfBits W w) = w % 2 ^ W := by
  simp [cellOfBits, bitsOfCell]

theorem fits_cellOfBits {W : Nat} (h : 1 ≤ W) (w : Nat) : Fits W (cellOfBits W w) := by
  have : cellOfBits W w = wrapW W (w : Int) := by
    rw [cellOfBits, wrapW, BitVec.toInt_eq_toNat_bmod, BitVec.toNat_ofNat]
    exact_mod_cast Int.emod_bmod (w : Int) (2 ^ W)
  rw [this]; exact fits_wrapW h _

theorem cellOfBits_add_mul (W x k : Nat) : cellOfBits W (x + 2 ^ W * k) = cellOfBits W x := by
  unfold cellOfBits
  congr 1
  apply BitVec.eq_of_toNat_eq
  simp

theorem cellsOfWord_wordOfCells {W : Nat} (h : 1 ≤ W) {vs : List Int} (hv : ∀ v ∈ vs, Fits W v) :
    cellsOfWord W vs.length (wordOfCells W vs) = vs := by
  induction vs with
  | nil => rfl
  | cons v vs ih =>
    have hlt := bitsOfCell_lt W v
    simp only [List.length_cons, cellsOfWord, wordOfCells, cellOfBits_add_mul]
    rw [cellOfBits_bitsOfCell h (hv v (by simp)),
      Nat.add_mul_div_left _ _ (Nat.pow_pos (by decide)), Nat.div_eq_of_lt hlt, Nat.zero_add,
      ih fun u hu => hv u (by simp [hu])]

theorem wordOfCells_lt (W : Nat) (vs : List Int) : wordOfCells W vs < 2 ^ (vs.length * W) := by
  induction vs with
  | nil => simp [wordOfCells]
  | cons v vs ih =>
    have hlt := bitsOfCell_lt W v
    have e : 2 ^ ((v :: vs).length * W) = 2 ^ W * 2 ^ (vs.length * W) := by
      rw [← Nat.pow_add]; congr 1; simp only [List.length_cons]; ring
    have : 2 ^ W * (wordOfCells W vs + 1) ≤ 2 ^ W * 2 ^ (vs.length * W) := Nat.mul_le_mul_left _ ih
    rw [e, wordOfCells]
    rw [Nat.mul_add, Nat.mul_one] at this
    omega

theorem wordOfCells_cellsOfWord (W n w : Nat) : wordOfCells W (cellsOfWord W n w) = w % 2 ^ (n * W) := by
  induction n generalizing w with
  | zero => simp [cellsOfWord, wordOfCells, Nat.mod_one]
  | succ n ih =>
    have e : 2 ^ ((n + 1) * W) = 2 ^ W * 2 ^ (n * W) := by rw [← Nat.pow_add]; congr 1; ring
    rw [cellsOfWord, wordOfCells, ih, bitsOfCell_cellOfBits, e, Nat.mod_mul]

end Sys2Proof
end

