-- ==== Sys2Proof/Laws/Memory.lean ====
section
/-! SUPPORT. Laws of the sparse array: what a read gives after each operation, and that each keeps the canonical form. -/

namespace Sys2Proof.Machine.Memory

@[simp] theorem read_nil (i : Nat) : read [] i = unlisted := rfl

theorem read_eq_unlisted {m : Memory} {i : Nat} (h : ∀ p ∈ m, p.1 ≠ i) : read m i = unlisted := by
  induction m with
  | nil => rfl
  | cons p m ih =>
    obtain ⟨j, v⟩ := p
    have hj : j ≠ i := h (j, v) (by simp)
    simp only [read, if_neg hj]
    exact ih fun q hq => h q (by simp [hq])

theorem read_cons {m : Memory} {j : Nat} (v : Int) (h : ∀ p ∈ m, j < p.1) (i : Nat) :
    read (cons j v m) i = if i = j then v else read m i := by
  unfold cons
  by_cases hv : v = unlisted
  · rw [if_pos hv]
    split
    · next hi => subst hi; rw [hv]; exact read_eq_unlisted fun p hp => by have := h p hp; omega
    · rfl
  · rw [if_neg hv]
    simp only [read, eq_comm]

theorem mem_cons {m : Memory} {j : Nat} {v : Int} {p : Nat × Int} (h : p ∈ cons j v m) :
    p = (j, v) ∨ p ∈ m := by
  unfold cons at h
  split at h
  · exact .inr h
  · simpa using h

theorem wf_cons {m : Memory} {j : Nat} {v : Int} (hm : wf m) (h : ∀ p ∈ m, j < p.1) : wf (cons j v m) := by
  unfold cons
  split
  · exact hm
  · next hv =>
    refine ⟨List.pairwise_cons.mpr ⟨h, hm.1⟩, ?_⟩
    intro p hp
    rcases List.mem_cons.mp hp with rfl | hp
    · exact hv
    · exact hm.2 p hp

theorem wf_tail {p : Nat × Int} {m : Memory} (h : wf (p :: m)) : wf m ∧ ∀ q ∈ m, p.1 < q.1 :=
  ⟨⟨(List.pairwise_cons.mp h.1).2, fun q hq => h.2 q (by simp [hq])⟩, (List.pairwise_cons.mp h.1).1⟩

/-- A canonical head is what `cons` lists. -/
theorem cons_eq_of_wf {j : Nat} {v : Int} {m : Memory} (h : wf ((j, v) :: m)) : cons j v m = (j, v) :: m :=
  if_neg (h.2 (j, v) (by simp))

theorem mem_write {m : Memory} {i : Nat} {v : Int} {p : Nat × Int} (h : p ∈ write m i v) :
    p = (i, v) ∨ p ∈ m := by
  induction m with
  | nil => exact mem_cons h
  | cons q m ih =>
    obtain ⟨j, u⟩ := q
    simp only [write] at h
    split at h
    · exact mem_cons h
    · split at h
      · rcases mem_cons h with h | h <;> simp [h]
      · rcases List.mem_cons.mp h with h | h
        · simp [h]
        · rcases ih h with h | h <;> simp [h]

theorem wf_write {m : Memory} (h : wf m) (i : Nat) (v : Int) : wf (write m i v) := by
  induction m with
  | nil => exact wf_cons h (by simp)
  | cons q m ih =>
    obtain ⟨j, u⟩ := q
    obtain ⟨hm, hlt⟩ := wf_tail h
    simp only [write]
    split
    · next hij =>
      refine wf_cons h fun p hp => ?_
      rcases List.mem_cons.mp hp with rfl | hp
      · exact hij
      · exact Nat.lt_trans hij (hlt p hp)
    · split
      · next hij => exact wf_cons hm (by simpa [hij] using hlt)
      · next h1 h2 =>
        rw [← cons_eq_of_wf (m := write m i v) (j := j) (v := u)]
        · refine wf_cons (ih hm) fun p hp => ?_
          rcases mem_write hp with rfl | hp
          · change j < i; omega
          · exact hlt p hp
        · refine ⟨List.pairwise_cons.mpr ⟨fun p hp => ?_, (ih hm).1⟩, fun p hp => ?_⟩
          · rcases mem_write hp with rfl | hp
            · change j < i; omega
            · exact hlt p hp
          · rcases List.mem_cons.mp hp with rfl | hp
            · exact h.2 _ (by simp)
            · exact (ih hm).2 p hp

/-- A read after a write: the value written there, and the old value everywhere else. -/
theorem read_write {m : Memory} (h : wf m) (i : Nat) (v : Int) (k : Nat) :
    read (write m i v) k = if k = i then v else read m k := by
  induction m with
  | nil => exact read_cons v (by simp) k
  | cons q m ih =>
    obtain ⟨j, u⟩ := q
    obtain ⟨hm, hlt⟩ := wf_tail h
    simp only [write]
    split
    · next hij =>
      refine read_cons v (fun p hp => ?_) k
      rcases List.mem_cons.mp hp with rfl | hp
      · exact hij
      · exact Nat.lt_trans hij (hlt p hp)
    · split
      · next hij =>
        subst hij
        rw [read_cons v hlt]
        split
        · rfl
        · next hk => simp only [read, if_neg (Ne.symm hk)]
      · next h1 h2 =>
        simp only [read]
        split
        · next hjk => rw [if_neg (by omega)]
        · exact ih hm

theorem mem_below {n : Nat} {m : Memory} {p : Nat × Int} : p ∈ below n m ↔ p ∈ m ∧ p.1 < n := by
  simp [below]

theorem wf_below {m : Memory} (h : wf m) (n : Nat) : wf (below n m) :=
  ⟨h.1.filter _, fun p hp => h.2 p (mem_below.mp hp).1⟩

theorem read_below (n : Nat) (m : Memory) (i : Nat) :
    read (below n m) i = if i < n then read m i else unlisted := by
  induction m with
  | nil => simp [below, read]
  | cons q m ih =>
    obtain ⟨j, v⟩ := q
    by_cases hj : j < n
    · rw [below, List.filter_cons_of_pos (by simpa using hj), ← below]
      simp only [read, ih]
      by_cases hi : j = i
      · subst hi; simp [hj]
      · simp [hi]
    · rw [below, List.filter_cons_of_neg (by simpa using hj), ← below, ih]
      split
      · next hi => simp only [read]; rw [if_neg (by omega)]
      · rfl

theorem below_eq_self {n : Nat} {m : Memory} (h : ∀ p ∈ m, p.1 < n) : below n m = m :=
  List.filter_eq_self.mpr fun p hp => by simpa using h p hp

theorem below_below {a b : Nat} (h : a ≤ b) (m : Memory) : below b (below a m) = below a m :=
  below_eq_self fun _ hp => Nat.lt_of_lt_of_le (mem_below.mp hp).2 h

theorem mem_ofCells {vs : List Int} {i : Nat} {p : Nat × Int} (h : p ∈ ofCells i vs) :
    i ≤ p.1 ∧ p.1 < i + vs.length ∧ p.2 ∈ vs := by
  induction vs generalizing i with
  | nil => simp [ofCells] at h
  | cons v vs ih =>
    rcases mem_cons h with rfl | h
    · simp
    · obtain ⟨h1, h2, h3⟩ := ih h
      refine ⟨by omega, by simp only [List.length_cons]; omega, List.mem_cons_of_mem _ h3⟩

theorem wf_ofCells (i : Nat) (vs : List Int) : wf (ofCells i vs) := by
  induction vs generalizing i with
  | nil => exact ⟨List.Pairwise.nil, by simp [ofCells]⟩
  | cons v vs ih => exact wf_cons (ih (i + 1)) fun p hp => by have := (mem_ofCells hp).1; omega

theorem read_ofCells (i : Nat) (vs : List Int) (k : Nat) :
    read (ofCells i vs) (i + k) = vs.getD k unlisted := by
  induction vs generalizing i k with
  | nil => simp [ofCells]
  | cons v vs ih =>
    rw [ofCells, read_cons v fun p hp => by have := (mem_ofCells hp).1; omega]
    cases k with
    | zero => simp
    | succ k =>
      rw [if_neg (by omega), show i + (k + 1) = i + 1 + k by omega, ih]
      simp

/-- Canonical memories that read alike are the same data. -/
theorem eq_of_read_eq {m n : Memory} (hm : wf m) (hn : wf n) (h : ∀ i, read m i = read n i) : m = n := by
  induction m generalizing n with
  | nil =>
    cases n with
    | nil => rfl
    | cons q n =>
      have e := h q.1
      simp only [read, if_true] at e
      exact absurd e.symm (hn.2 q (by simp))
  | cons p m ih =>
    cases n with
    | nil =>
      have e := h p.1
      simp only [read, if_true] at e
      exact absurd e (hm.2 p (by simp))
    | cons q n =>
      obtain ⟨i, u⟩ := p
      obtain ⟨j, v⟩ := q
      obtain ⟨hm', hmlt⟩ := wf_tail hm
      obtain ⟨hn', hnlt⟩ := wf_tail hn
      have below_m : ∀ k, k ≤ i → read m k = unlisted := fun k hk =>
        read_eq_unlisted fun p hp => by have : i < p.1 := hmlt p hp; omega
      have below_n : ∀ k, k ≤ j → read n k = unlisted := fun k hk =>
        read_eq_unlisted fun p hp => by have : j < p.1 := hnlt p hp; omega
      have hi := h i
      have hj := h j
      simp only [read, if_true] at hi hj
      have hij : i = j := by
        rcases Nat.lt_trichotomy i j with lt | eq | lt
        · rw [if_neg (by omega), below_n i (by omega)] at hi
          exact absurd hi (hm.2 (i, u) (by simp))
        · exact eq
        · rw [if_neg (by omega), below_m j (by omega)] at hj
          exact absurd hj.symm (hn.2 (j, v) (by simp))
      subst hij
      rw [if_pos rfl] at hi
      subst hi
      congr 1
      refine ih hm' hn' fun k => ?_
      by_cases hk : i = k
      · rw [below_m k (by omega), below_n k (by omega)]
      · have e := h k
        simpa only [read, if_neg hk] using e

end Sys2Proof.Machine.Memory
end

