-- ==== Sys2Proof/Laws/State.lean ====
section
/-! SUPPORT. One lemma per field per update of State. -/

namespace Sys2Proof.Machine.State

variable (s : State) (x : Nat) (v : Int) (cause : FaultCause) (addr : Int) (i : Instr)

@[simp] theorem grow_cfg : (s.grow x).cfg = s.cfg := rfl
@[simp] theorem grow_mem : (s.grow x).mem = Memory.below s.size s.mem := rfl
@[simp] theorem grow_size : (s.grow x).size = x + 1 := rfl
@[simp] theorem grow_pc : (s.grow x).pc = s.pc := rfl
@[simp] theorem grow_runState : (s.grow x).runState = s.runState := rfl
@[simp] theorem grow_faultCause : (s.grow x).faultCause = s.faultCause := rfl
@[simp] theorem grow_faultAddr : (s.grow x).faultAddr = s.faultAddr := rfl
@[simp] theorem grow_latch : (s.grow x).latch = s.latch := rfl

@[simp] theorem touch_cfg : (s.touch x).cfg = s.cfg := by unfold touch; split <;> rfl
@[simp] theorem touch_pc : (s.touch x).pc = s.pc := by unfold touch; split <;> rfl
@[simp] theorem touch_runState : (s.touch x).runState = s.runState := by unfold touch; split <;> rfl
@[simp] theorem touch_faultCause : (s.touch x).faultCause = s.faultCause := by unfold touch; split <;> rfl
@[simp] theorem touch_faultAddr : (s.touch x).faultAddr = s.faultAddr := by unfold touch; split <;> rfl
@[simp] theorem touch_latch : (s.touch x).latch = s.latch := by unfold touch; split <;> rfl

@[simp] theorem memRead_snd : (s.memRead x).2 = s.touch x := rfl

@[simp] theorem memWrite_cfg : (s.memWrite x v).cfg = s.cfg := touch_cfg s x
@[simp] theorem memWrite_mem : (s.memWrite x v).mem = Memory.write (s.touch x).mem x v := rfl
@[simp] theorem memWrite_size : (s.memWrite x v).size = (s.touch x).size := rfl
@[simp] theorem memWrite_pc : (s.memWrite x v).pc = s.pc := touch_pc s x
@[simp] theorem memWrite_runState : (s.memWrite x v).runState = s.runState := touch_runState s x
@[simp] theorem memWrite_faultCause : (s.memWrite x v).faultCause = s.faultCause := touch_faultCause s x
@[simp] theorem memWrite_faultAddr : (s.memWrite x v).faultAddr = s.faultAddr := touch_faultAddr s x
@[simp] theorem memWrite_latch : (s.memWrite x v).latch = s.latch := touch_latch s x

@[simp] theorem latchInstr_cfg : (s.latchInstr i).cfg = s.cfg := by cases i; rfl
@[simp] theorem latchInstr_mem : (s.latchInstr i).mem = s.mem := by cases i; rfl
@[simp] theorem latchInstr_size : (s.latchInstr i).size = s.size := by cases i; rfl
@[simp] theorem latchInstr_pc : (s.latchInstr i).pc = s.pc := by cases i; rfl
@[simp] theorem latchInstr_runState : (s.latchInstr i).runState = s.runState := by cases i; rfl
@[simp] theorem latchInstr_faultCause : (s.latchInstr i).faultCause = s.faultCause := by cases i; rfl
@[simp] theorem latchInstr_faultAddr : (s.latchInstr i).faultAddr = s.faultAddr := by cases i; rfl
@[simp] theorem latchInstr_latch (a b c : Int) : (s.latchInstr (.subleq a b c)).latch = ⟨a, b, c⟩ := rfl

@[simp] theorem halt_cfg : s.halt.cfg = s.cfg := rfl
@[simp] theorem halt_mem : s.halt.mem = s.mem := rfl
@[simp] theorem halt_size : s.halt.size = s.size := rfl
@[simp] theorem halt_pc : s.halt.pc = s.pc := rfl
@[simp] theorem halt_runState : s.halt.runState = .halted := rfl
@[simp] theorem halt_faultCause : s.halt.faultCause = s.faultCause := rfl
@[simp] theorem halt_faultAddr : s.halt.faultAddr = s.faultAddr := rfl
@[simp] theorem halt_latch : s.halt.latch = s.latch := rfl

@[simp] theorem raiseFault_cfg : (s.raiseFault cause addr).cfg = s.cfg := rfl
@[simp] theorem raiseFault_mem : (s.raiseFault cause addr).mem = s.mem := rfl
@[simp] theorem raiseFault_size : (s.raiseFault cause addr).size = s.size := rfl
@[simp] theorem raiseFault_pc : (s.raiseFault cause addr).pc = s.pc := rfl
@[simp] theorem raiseFault_runState : (s.raiseFault cause addr).runState = .faulted := rfl
@[simp] theorem raiseFault_faultCause : (s.raiseFault cause addr).faultCause = cause := rfl
@[simp] theorem raiseFault_faultAddr : (s.raiseFault cause addr).faultAddr = addr := rfl
@[simp] theorem raiseFault_latch : (s.raiseFault cause addr).latch = s.latch := rfl

end Sys2Proof.Machine.State

namespace Sys2Proof.Machine

variable (cfg : Config) (image : List Int) (entry : Int)

@[simp] theorem loadedState_cfg : (loadedState cfg image entry).cfg = cfg := rfl
@[simp] theorem loadedState_mem : (loadedState cfg image entry).mem = Memory.ofCells 0 image := rfl
@[simp] theorem loadedState_size : (loadedState cfg image entry).size = image.length := rfl
@[simp] theorem loadedState_pc : (loadedState cfg image entry).pc = entry := rfl
@[simp] theorem loadedState_runState : (loadedState cfg image entry).runState = .running := rfl
@[simp] theorem loadedState_faultCause : (loadedState cfg image entry).faultCause = .none := rfl
@[simp] theorem loadedState_faultAddr : (loadedState cfg image entry).faultAddr = 0 := rfl
@[simp] theorem loadedState_latch : (loadedState cfg image entry).latch = ⟨0, 0, 0⟩ := rfl

end Sys2Proof.Machine
end

