-- ==== Sys2Proof/Laws/Ops.lean ====
section
/-! SUPPORT. What each shared operation can do, said once: growth and the two accesses, the fetch, operand validation, the
subtraction, the instruction, and the step. Later proofs cite these and unfold nothing. -/

namespace Sys2Proof.Machine

/-! ### Growth and access -/

theorem State.touch_size (s : State) (x : Nat) : (s.touch x).size = max s.size (x + 1) := by
  unfold touch; split
  · simp; omega
  · omega

theorem State.touch_mem_wf {s : State} (h : Memory.wf s.mem) (x : Nat) : Memory.wf (s.touch x).mem := by
  unfold touch; split
  · exact Memory.wf_below h _
  · exact h

theorem State.memWrite_mem_wf {s : State} (h : Memory.wf s.mem) (x : Nat) (v : Int) :
    Memory.wf (s.memWrite x v).mem := Memory.wf_write (touch_mem_wf h x) x v

theorem State.mem_touch {s : State} {x : Nat} {p : Nat × Int} (h : p ∈ (s.touch x).mem) : p ∈ s.mem := by
  unfold touch at h; split at h
  · exact (Memory.mem_below.mp h).1
  · exact h

/-- Touching a cell keeps every cell of the valid range, and makes the new ones 0 (R39). -/
theorem State.fetchCell_touch (s : State) (x i : Nat) :
    (s.touch x).fetchCell i = if i < s.size then s.fetchCell i else if i ≤ x then some 0 else none := by
  unfold touch
  split
  · next h =>
    simp only [fetchCell, grow_size, grow_mem, Memory.read_below]
    by_cases h1 : i < s.size
    · simp [h1]; omega
    · by_cases h2 : i ≤ x
      · simp [h1, h2, Memory.unlisted]
      · simp [h1, h2]
  · next h =>
    simp only [fetchCell]
    by_cases h1 : i < s.size
    · simp [h1]
    · simp [h1]; omega

theorem State.fetchCell_memWrite {s : State} (h : Memory.wf s.mem) (x : Nat) (v : Int) (i : Nat) :
    (s.memWrite x v).fetchCell i = if i = x then some v else (s.touch x).fetchCell i := by
  simp only [fetchCell, memWrite_size, memWrite_mem, Memory.read_write (touch_mem_wf h x), touch_size]
  by_cases hi : i = x
  · simp [hi]
  · simp [hi]

@[simp] theorem State.operand_touch (s : State) (x : Nat) (y : Int) : (s.touch x).operand y = s.operand y := by
  rw [operand, operand, fetchCell_touch]
  by_cases h : y.toNat < s.size
  · simp [h]
  · by_cases hx : y.toNat ≤ x <;> simp [h, hx, fetchCell]

theorem State.memRead_fst (s : State) (x : Nat) : (s.memRead x).1 = s.operand x := by
  rw [← operand_touch s x]
  have : x < (s.touch x).size := by rw [touch_size]; omega
  simp [memRead, operand, fetchCell, this]

theorem State.memRead_toNat_fst (s : State) (x : Int) : (s.memRead x.toNat).1 = s.operand x := by
  rw [memRead_fst, operand, operand, Int.toNat_natCast]

theorem State.operand_toNat (s : State) (x : Int) : s.operand (x.toNat : Int) = s.operand x := by
  rw [operand, operand, Int.toNat_natCast]

theorem State.operand_memWrite {s : State} (h : Memory.wf s.mem) (x : Nat) (v : Int) (y : Int) :
    (s.memWrite x v).operand y = if y.toNat = x then v else s.operand y := by
  rw [operand, fetchCell_memWrite h]
  split
  · rfl
  · exact operand_touch s x y

/-! ### The fetch -/

theorem State.fetchFails_iff (s : State) : s.fetchFails = true ↔ s.pc < 0 ∨ (s.size : Int) ≤ s.pc + 2 := by
  simp [fetchFails]

theorem State.fetchInstr_of_fails {s : State} (h : s.fetchFails = true) : s.fetchInstr = none := by
  simp [fetchInstr, h]

/-- A fetch that passes the check gives the triple at PC (R70). -/
theorem State.fetchInstr_of_valid {s : State} (h0 : 0 ≤ s.pc) (h2 : s.pc + 2 < s.size) :
    s.fetchInstr = some (.subleq (Memory.read s.mem s.pc.toNat) (Memory.read s.mem (s.pc.toNat + 1))
      (Memory.read s.mem (s.pc.toNat + 2))) := by
  have hf : s.fetchFails = false := by
    rw [Bool.eq_false_iff, ne_eq, fetchFails_iff]; omega
  have e0 : s.pc.toNat < s.size := by omega
  have e1 : s.pc.toNat + 1 < s.size := by omega
  have e2 : s.pc.toNat + 2 < s.size := by omega
  simp [fetchInstr, hf, fetchCell, e0, e1, e2, decode]

theorem State.fetchInstr_isSome_iff (s : State) : s.fetchInstr.isSome = true ↔ 0 ≤ s.pc ∧ s.pc + 2 < s.size := by
  constructor
  · intro h
    by_contra hn
    rw [fetchInstr_of_fails (s.fetchFails_iff.mpr (by omega))] at h
    exact absurd h (by simp)
  · rintro ⟨h0, h2⟩
    rw [fetchInstr_of_valid h0 h2]; rfl

/-- A triple at PC is what the fetch gives. -/
theorem State.fetchInstr_of_triple {s : State} {a b c : Int} (h : s.TripleAtPc a b c) :
    0 ≤ s.pc ∧ s.pc + 2 < s.size ∧ s.fetchInstr = some (.subleq a b c) := by
  obtain ⟨h0, h1, h2, h3⟩ := h
  have hlt : s.pc.toNat + 2 < s.size := by
    by_contra hn
    simp [fetchCell, hn] at h3
  have h2' : s.pc + 2 < s.size := by omega
  refine ⟨h0, h2', ?_⟩
  rw [fetchInstr_of_valid h0 h2']
  rw [fetchCell, if_pos (by omega), Option.some.injEq] at h1 h2 h3
  rw [h1, h2, h3]

/-- Where the fetch check passes there is a triple. -/
theorem State.exists_tripleAtPc {s : State} (h0 : 0 ≤ s.pc) (h2 : s.pc + 2 < s.size) :
    ∃ a b c, s.TripleAtPc a b c :=
  ⟨Memory.read s.mem s.pc.toNat, Memory.read s.mem (s.pc.toNat + 1), Memory.read s.mem (s.pc.toNat + 2), h0,
    by simp only [fetchCell]; refine ⟨if_pos ?_, if_pos ?_, if_pos ?_⟩ <;> omega⟩

/-! ### LOAD -/

theorem loadRefused_eq_false_iff (cfg : Config) (image : List Int) (entry : Int) :
    loadRefused cfg image entry = false ↔
      image.length ≤ cfg.capacity ∧ (∀ v ∈ image, Fits cfg.cellBits v) ∧ Fits cfg.cellBits entry := by
  unfold loadRefused
  rw [Bool.or_eq_false_iff, Bool.or_eq_false_iff, decide_eq_false_iff_not, Nat.not_lt, List.any_eq_false]
  simp only [Bool.not_eq_true', decide_eq_false_iff_not, Decidable.not_not, Bool.not_eq_false', decide_eq_true_eq,
    and_assoc]

theorem loadedState_fetchCell (cfg : Config) (image : List Int) (entry : Int) (i : Nat) :
    (loadedState cfg image entry).fetchCell i = image[i]? := by
  have e := Memory.read_ofCells 0 image i
  rw [Nat.zero_add] at e
  by_cases h : i < image.length
  · simp [State.fetchCell, loadedState, e, h]
  · simp [State.fetchCell, loadedState, h]

/-! ### Validation and subtraction -/

theorem addrFault_eq_none_iff (cfg : Config) (x : Int) :
    addrFault cfg x = none ↔ 0 ≤ x ∧ x < cfg.capacity := by
  unfold addrFault
  split
  · simp; omega
  · split
    · simp; omega
    · simp; omega

theorem operandFault_eq_none_iff (cfg : Config) (a b : Int) :
    operandFault cfg a b = none ↔ OperandsInMemory cfg a b := by
  unfold operandFault
  cases ha : addrFault cfg a with
  | some cause =>
    have : ¬ (0 ≤ a ∧ a < (cfg.capacity : Int)) := by
      rw [← addrFault_eq_none_iff]; simp [ha]
    simp only [OperandsInMemory, this, false_and, reduceCtorEq]
  | none =>
    have h1 := (addrFault_eq_none_iff cfg a).mp ha
    cases hb : addrFault cfg b with
    | some cause =>
      have : ¬ (0 ≤ b ∧ b < (cfg.capacity : Int)) := by
        rw [← addrFault_eq_none_iff]; simp [hb]
      simp only [OperandsInMemory, this, and_false, reduceCtorEq]
    | none =>
      have h2 := (addrFault_eq_none_iff cfg b).mp hb
      simp [OperandsInMemory, h1, h2]

/-- What a failed validation reports: the operand and the cause it earns (R105, R106). -/
theorem operandFault_eq_some {cfg : Config} {a b : Int} {cause : FaultCause} {addr : Int}
    (h : operandFault cfg a b = some (cause, addr)) :
    (addr = a ∨ addr = b) ∧
      ((cause = .negAddr ∧ addr < 0) ∨ (cause = .capExceeded ∧ 0 ≤ addr ∧ (cfg.capacity : Int) ≤ addr)) := by
  have one : ∀ x c, addrFault cfg x = some c →
      (c = .negAddr ∧ x < 0) ∨ (c = .capExceeded ∧ 0 ≤ x ∧ (cfg.capacity : Int) ≤ x) := by
    intro x c hx
    unfold addrFault at hx
    split at hx
    · next hneg => exact .inl ⟨(Option.some.inj hx).symm, hneg⟩
    · next hneg =>
      split at hx
      · next hcap => exact .inr ⟨(Option.some.inj hx).symm, by omega, hcap⟩
      · exact absurd hx (by simp)
  unfold operandFault at h
  cases ha : addrFault cfg a with
  | some c =>
    simp only [ha, Option.some.injEq, Prod.mk.injEq] at h
    obtain ⟨rfl, rfl⟩ := h
    exact ⟨.inl rfl, one _ _ ha⟩
  | none =>
    cases hb : addrFault cfg b with
    | some c =>
      simp only [ha, hb, Option.some.injEq, Prod.mk.injEq] at h
      obtain ⟨rfl, rfl⟩ := h
      exact ⟨.inr rfl, one _ _ hb⟩
    | none => simp [ha, hb] at h

theorem subtract_of_noOverflow {cfg : Config} {vb va : Int} (hW : 1 ≤ cfg.cellBits) (h : NoOverflow cfg vb va) :
    subtract cfg vb va = some (wrapW cfg.cellBits (vb - va)) := by
  unfold subtract
  rcases h with h | h
  · simp [h]
  · cases ho : cfg.overflow with
    | wrap => rfl
    | fault => simp only [if_pos h, wrapW_of_fits hW h]

theorem subtract_eq_none_iff (cfg : Config) (vb va : Int) :
    subtract cfg vb va = none ↔ cfg.overflow = .fault ∧ ¬ Fits cfg.cellBits (vb - va) := by
  unfold subtract
  cases cfg.overflow with
  | wrap => simp
  | fault => by_cases h : Fits cfg.cellBits (vb - va) <;> simp [h]

theorem fits_of_subtract {cfg : Config} {vb va r : Int} (hW : 1 ≤ cfg.cellBits) (h : subtract cfg vb va = some r) :
    Fits cfg.cellBits r := by
  unfold subtract at h
  cases ho : cfg.overflow with
  | wrap =>
    simp only [ho, Option.some.injEq] at h
    exact h ▸ fits_wrapW hW _
  | fault =>
    by_cases hf : Fits cfg.cellBits (vb - va)
    · simp only [ho, if_pos hf, Option.some.injEq] at h
      exact h ▸ hf
    · simp [ho, hf] at h

/-! ### The instruction and the step -/

/-- The state an executed SUBLEQ leaves, given the result `r` (R73, R75, R76). -/
def subleqResult (s : State) (a b c r : Int) : State :=
  { ((s.touch b.toNat).touch a.toNat).memWrite b.toNat r with pc := nextPc s.pc r c }

@[simp] theorem subleqResult_cfg (s : State) (a b c r : Int) : (subleqResult s a b c r).cfg = s.cfg := by
  simp [subleqResult]
@[simp] theorem subleqResult_pc (s : State) (a b c r : Int) : (subleqResult s a b c r).pc = nextPc s.pc r c := rfl
@[simp] theorem subleqResult_runState (s : State) (a b c r : Int) :
    (subleqResult s a b c r).runState = s.runState := by simp [subleqResult]
@[simp] theorem subleqResult_faultCause (s : State) (a b c r : Int) :
    (subleqResult s a b c r).faultCause = s.faultCause := by simp [subleqResult]
@[simp] theorem subleqResult_faultAddr (s : State) (a b c r : Int) :
    (subleqResult s a b c r).faultAddr = s.faultAddr := by simp [subleqResult]
@[simp] theorem subleqResult_latch (s : State) (a b c r : Int) : (subleqResult s a b c r).latch = s.latch := by
  simp [subleqResult]

theorem subleqResult_size (s : State) (a b c r : Int) :
    (subleqResult s a b c r).size = max s.size (max (a.toNat + 1) (b.toNat + 1)) := by
  simp only [subleqResult, State.memWrite_size, State.touch_size]; omega

theorem subleqResult_mem_wf {s : State} (h : Memory.wf s.mem) (a b c r : Int) :
    Memory.wf (subleqResult s a b c r).mem :=
  State.memWrite_mem_wf (State.touch_mem_wf (State.touch_mem_wf h _) _) _ _

/-- Every listed entry is the result at b or an entry listed before. -/
theorem mem_subleqResult {s : State} {a b c r : Int} {p : Nat × Int} (h : p ∈ (subleqResult s a b c r).mem) :
    p = (b.toNat, r) ∨ p ∈ s.mem := by
  rcases Memory.mem_write h with h | h
  · exact .inl h
  · exact .inr (State.mem_touch (State.mem_touch (State.mem_touch h)))

/-- Every cell after an executed SUBLEQ: the result at b, the old value in the old range, 0 where memory grew (R41). -/
theorem subleqResult_fetchCell {s : State} (h : Memory.wf s.mem) (a b c r : Int) (i : Nat) :
    (subleqResult s a b c r).fetchCell i =
      if i = b.toNat then some r
      else if i < s.size then s.fetchCell i
      else if i ≤ max a.toNat b.toNat then some 0 else none := by
  have e : (subleqResult s a b c r).fetchCell i
      = (((s.touch b.toNat).touch a.toNat).memWrite b.toNat r).fetchCell i := rfl
  rw [e, State.fetchCell_memWrite (State.touch_mem_wf (State.touch_mem_wf h _) _)]
  simp only [State.fetchCell_touch, State.touch_size]
  by_cases hb : i = b.toNat
  · simp [hb]
  · simp only [hb, if_false]
    by_cases h1 : i < s.size
    · simp [h1]
    · by_cases h2 : i ≤ b.toNat
      · simp [h1, h2]
      · by_cases h3 : i ≤ a.toNat
        · simp [h1, h2, h3]
        · simp [h1, h2, h3]

theorem subleqResult_operand {s : State} (h : Memory.wf s.mem) (a b c r : Int) (y : Int) :
    (subleqResult s a b c r).operand y = if y.toNat = b.toNat then r else s.operand y := by
  rw [State.operand, subleqResult_fetchCell h]
  by_cases hb : y.toNat = b.toNat
  · simp [hb]
  · simp only [hb, if_false, State.operand]
    by_cases h1 : y.toNat < s.size
    · simp [h1]
    · by_cases h2 : y.toNat ≤ max a.toNat b.toNat <;> simp [h1, h2, State.fetchCell]

/-- SUBLEQ in terms of the state it starts from: the operand values do not depend on the growth of the other read (R49). -/
theorem execSubleq_eq (a b c : Int) (s : State) :
    execSubleq a b c s =
      match operandFault s.cfg a b with
      | some (cause, addr) => .next (s.raiseFault cause addr)
      | none =>
        match subtract s.cfg (s.operand b) (s.operand a) with
        | none => .next (s.raiseFault .overflow b)
        | some r => .next (subleqResult s a b c r) := by
  unfold execSubleq
  simp only [readOperands, State.memRead_toNat_fst, State.memRead_snd, State.operand_touch]
  rfl

theorem nextPc_eq (pc r c : Int) : nextPc pc r c = if r ≤ 0 then c else pc + 3 := by
  simp [nextPc, branchTaken, instrCells]

/-- SUBLEQ executes when both addresses lie in memory and the subtraction has a result. -/
theorem exec_of_subtract {s : State} {a b r : Int} (c : Int) (h : OperandsInMemory s.cfg a b)
    (hs : subtract s.cfg (s.operand b) (s.operand a) = some r) :
    exec (.subleq a b c) s = .next (subleqResult s a b c r) := by
  simp only [exec, execSubleq_eq, (operandFault_eq_none_iff _ _ _).mpr h, hs]

/-- Everything an instruction can do: execute, or raise one of the three faults on an otherwise unchanged state. -/
theorem exec_cases {i : Instr} {s t : State} (h : exec i s = .next t) :
    ∃ a b c, i = .subleq a b c ∧
      ((∃ cause addr, operandFault s.cfg a b = some (cause, addr) ∧ t = s.raiseFault cause addr) ∨
       (OperandsInMemory s.cfg a b ∧ subtract s.cfg (s.operand b) (s.operand a) = none ∧
          t = s.raiseFault .overflow b) ∨
       (OperandsInMemory s.cfg a b ∧ ∃ r, subtract s.cfg (s.operand b) (s.operand a) = some r ∧
          t = subleqResult s a b c r)) := by
  obtain ⟨a, b, c⟩ := i
  refine ⟨a, b, c, rfl, ?_⟩
  simp only [exec, execSubleq_eq] at h
  cases ho : operandFault s.cfg a b with
  | some p =>
    obtain ⟨cause, addr⟩ := p
    simp only [ho, Host.Outcome.next.injEq] at h
    exact .inl ⟨cause, addr, rfl, h.symm⟩
  | none =>
    have hv := (operandFault_eq_none_iff _ _ _).mp ho
    cases hs : subtract s.cfg (s.operand b) (s.operand a) with
    | none =>
      simp only [ho, hs, Host.Outcome.next.injEq] at h
      exact .inr (.inl ⟨hv, rfl, h.symm⟩)
    | some r =>
      simp only [ho, hs, Host.Outcome.next.injEq] at h
      exact .inr (.inr ⟨hv, r, rfl, h.symm⟩)

/-- Everything a step can do (R102): nothing in a terminal state, the halt, or the fetched instruction. -/
theorem step_cases {s t : State} (h : step s = .next t) :
    (s.runState ≠ .running ∧ t = s) ∨
    (s.runState = .running ∧ s.fetchFails = true ∧ t = s.halt) ∨
    (s.runState = .running ∧ 0 ≤ s.pc ∧ s.pc + 2 < s.size ∧ ∃ i, s.fetchInstr = some i ∧
      exec i (s.latchInstr i) = .next t) := by
  unfold step at h
  cases hr : s.runState with
  | halted => simp only [hr, Host.Outcome.next.injEq] at h; exact .inl ⟨by simp, h.symm⟩
  | faulted => simp only [hr, Host.Outcome.next.injEq] at h; exact .inl ⟨by simp, h.symm⟩
  | running =>
    simp only [hr] at h
    by_cases hf : s.fetchFails = true
    · simp only [State.fetchInstr_of_fails hf, Host.Outcome.next.injEq] at h
      exact .inr (.inl ⟨rfl, hf, h.symm⟩)
    · rw [State.fetchFails_iff] at hf
      have h0 : 0 ≤ s.pc := by omega
      have h2 : s.pc + 2 < s.size := by omega
      rw [State.fetchInstr_of_valid h0 h2] at h
      exact .inr (.inr ⟨rfl, h0, h2, _, State.fetchInstr_of_valid h0 h2, h⟩)

/-- A running step with a triple at PC is the execution of that triple, latched. -/
theorem step_of_triple {s : State} {a b c : Int} (hr : s.runState = .running) (h : s.TripleAtPc a b c) :
    step s = exec (.subleq a b c) { s with latch := ⟨a, b, c⟩ } := by
  have e : step s = exec (.subleq a b c) (s.latchInstr (.subleq a b c)) := by
    unfold step; simp only [hr, (State.fetchInstr_of_triple h).2.2]
  exact e

/-- SUBLEQ always answers a next state: its faults are states (R104). -/
theorem exec_next (i : Instr) (s : State) : ∃ t, exec i s = .next t := by
  obtain ⟨a, b, c⟩ := i
  simp only [exec, execSubleq_eq]
  split
  · exact ⟨_, rfl⟩
  · split <;> exact ⟨_, rfl⟩

theorem State.touch_withLatch (s : State) (l : Latch) (x : Nat) :
    ({ s with latch := l } : State).touch x = { s.touch x with latch := l } := by
  unfold touch; split <;> rfl

theorem subleqResult_withLatch (s : State) (l : Latch) (a b c r : Int) :
    subleqResult { s with latch := l } a b c r = { subleqResult s a b c r with latch := l } := by
  simp only [subleqResult, State.memWrite, State.touch_withLatch]

/-- SUBLEQ neither reads nor writes the latch (R27). -/
theorem exec_withLatch {i : Instr} {s t : State} (l : Latch) (h : exec i s = .next t) :
    exec i { s with latch := l } = .next { t with latch := l } := by
  obtain ⟨a, b, c, rfl, ⟨cause, addr, ho, rfl⟩ | ⟨hv, hs, rfl⟩ | ⟨hv, r, hs, rfl⟩⟩ := exec_cases h
  · simp only [exec, execSubleq_eq, ho]; rfl
  · have ho := (operandFault_eq_none_iff _ _ _).mpr hv
    have hs' : subtract s.cfg (State.operand { s with latch := l } b) (State.operand { s with latch := l } a) = none := hs
    simp only [exec, execSubleq_eq, ho, hs']; rfl
  · have hs' : subtract s.cfg (State.operand { s with latch := l } b) (State.operand { s with latch := l } a) = some r :=
      hs
    rw [exec_of_subtract (s := { s with latch := l }) c hv hs', subleqResult_withLatch]

end Sys2Proof.Machine
end

