-- ==== Sys2Proof/Laws/PerInstr.lean ====
section
/-! SUPPORT. Per-instruction laws: one family, one lemma per constructor of Instr. -/

namespace Sys2Proof.Laws.ThreeCells

/-- R58: the encoding of the instruction is three cells long, and decoding leaves what follows those cells untouched. -/
def Statement (i : Instr) : Prop :=
  (encode i).length = instrCells ∧ ∀ rest, decode (encode i ++ rest) = .ok (i, rest)

theorem subleq (a b c : Int) : Statement (.subleq a b c) := ⟨rfl, fun _ => rfl⟩

end Sys2Proof.Laws.ThreeCells
end

