-- ==== Sys2Proof/Laws/Run.lean ====
section
/-! SUPPORT. Laws of runs: a step always answers a next state, `run`, `Caller.drive` and divergence one step at a
time, the shape of the expansions of R65, and what a host transaction can do. -/

namespace Sys2Proof.Machine

theorem step_next (s : State) : ∃ t, step s = .next t := by
  unfold step
  split
  · exact ⟨_, rfl⟩
  · exact ⟨_, rfl⟩
  · split
    · exact ⟨_, rfl⟩
    · exact exec_next _ _

@[simp] theorem run_zero (s : State) : run 0 s = .next s := rfl

theorem core_run_succ (M : Host.Core) {k : Nat} {s u : M.State} (h : M.step s = .next u) :
    M.run (k + 1) s = M.run k u := by
  simp only [Host.Core.run, h]

theorem run_succ {k : Nat} {s u : State} (h : step s = .next u) : run (k + 1) s = run k u :=
  core_run_succ Sys2Proof.core h

theorem Caller.drive_succ {budget : Nat} {s t : State} (h : step s = .next t) :
    Caller.drive (budget + 1) s =
      match t.runState with
      | .halted => ⟨.halted, 0, t⟩
      | .faulted => ⟨.faulted, 0, t⟩
      | .running => (Caller.drive budget t).countStep := by
  cases hr : t.runState <;> simp [Caller.drive, Caller.follow, List.replicate_succ, h, hr]

@[simp] theorem Caller.drive_zero (s : State) : Caller.drive 0 s = ⟨.abandoned, 0, s⟩ := rfl

/-- A run of any length answers a state: no step stops (R102). -/
theorem run_next (n : Nat) (s : State) : ∃ t, run n s = .next t := by
  induction n generalizing s with
  | zero => exact ⟨s, rfl⟩
  | succ n ih =>
    obtain ⟨u, hu⟩ := step_next s
    rw [run_succ hu]
    exact ih u

/-- In HALTED and FAULTED no further STEP changes anything (R68). -/
theorem run_of_terminal {s : State} (hr : s.runState ≠ .running) (n : Nat) : run n s = .next s := by
  have h : step s = .next s := by unfold step; cases hs : s.runState <;> simp_all
  induction n with
  | zero => rfl
  | succ n ih => rw [run_succ h, ih]

theorem Caller.staysRunning_zero {s : State} (h : s.runState = .running) : Caller.StaysRunning s 0 := by
  intro k hk
  obtain rfl : k = 0 := by omega
  exact ⟨s, rfl, h⟩

/-- A run stays RUNNING one STEP longer when its first STEP does and the rest does. -/
theorem Caller.staysRunning_succ {n : Nat} {s u : State} (h : step s = .next u) :
    Caller.StaysRunning s (n + 1) ↔ s.runState = .running ∧ Caller.StaysRunning u n := by
  constructor
  · intro hs
    obtain ⟨t, ht, hr⟩ := hs 0 (Nat.zero_le _)
    obtain rfl : s = t := Host.Outcome.next.inj ht
    refine ⟨hr, fun k hk => ?_⟩
    obtain ⟨v, hv, hvr⟩ := hs (k + 1) (Nat.succ_le_succ hk)
    exact ⟨v, run_succ h ▸ hv, hvr⟩
  · rintro ⟨hr, hs⟩ k hk
    cases k with
    | zero => exact ⟨s, rfl, hr⟩
    | succ k =>
      obtain ⟨v, hv, hvr⟩ := hs k (Nat.le_of_succ_le_succ hk)
      exact ⟨v, (run_succ h).trans hv, hvr⟩

theorem Caller.diverges_step {s u : State} (h : step s = .next u) :
    Caller.Diverges s ↔ s.runState = .running ∧ Caller.Diverges u :=
  ⟨fun hd => ⟨((Caller.staysRunning_succ h).mp (hd 1)).1, fun n => ((Caller.staysRunning_succ h).mp (hd (n + 1))).2⟩,
    fun ⟨hr, hd⟩ n => match n with
      | 0 => Caller.staysRunning_zero hr
      | n + 1 => (Caller.staysRunning_succ h).mpr ⟨hr, hd n⟩⟩

/-- A RUNNING state that steps to itself diverges (P8). -/
theorem Caller.diverges_of_step_self {s : State} (hr : s.runState = .running) (h : step s = .next s) :
    Caller.Diverges s := by
  intro n
  induction n with
  | zero => exact Caller.staysRunning_zero hr
  | succ n ih => exact (Caller.staysRunning_succ h).mpr ⟨hr, ih⟩

/-! ### Running an expansion -/

theorem Pseudo.execSeq_cons {i : Instr} {s t : State} (is : List Instr) (hr : s.runState = .running)
    (h : exec i s = .next t) : Pseudo.execSeq (i :: is) s = Pseudo.execSeq is t := by
  rw [Pseudo.execSeq, hr, h]

theorem Pseudo.execSeq_of_terminal {s : State} (is : List Instr) (hr : s.runState ≠ .running) :
    Pseudo.execSeq is s = .next s := by
  cases is with
  | nil => rfl
  | cons i is => unfold Pseudo.execSeq; cases hs : s.runState <;> simp_all

/-! ### The expansions of R65 fall through, and write only y and Z -/

theorem Pseudo.fallsThrough_add (z x y p : Int) : Pseudo.FallsThrough p (Pseudo.add z x y p) :=
  ⟨rfl, by ring, by ring, trivial⟩

theorem Pseudo.fallsThrough_mov (z x y p : Int) : Pseudo.FallsThrough p (Pseudo.mov z x y p) :=
  ⟨rfl, by ring, by ring, by ring, trivial⟩

theorem Pseudo.sparesCells_add {lo hi z y : Int} (x p : Int) (hz : z < lo ∨ hi ≤ z) (hy : y < lo ∨ hi ≤ y) :
    Pseudo.SparesCells lo hi (Pseudo.add z x y p) := ⟨hz, hy, hz, trivial⟩

theorem Pseudo.sparesCells_mov {lo hi z y : Int} (x p : Int) (hz : z < lo ∨ hi ≤ z) (hy : y < lo ∨ hi ≤ y) :
    Pseudo.SparesCells lo hi (Pseudo.mov z x y p) := ⟨hy, hz, hy, hz, trivial⟩

/-- Everything a transaction can do: a step, an accepted LOAD, or nothing. -/
theorem transact_cases {tx : Transaction} {s t : State} {reply : Reply} (h : transact tx s = .next (t, reply)) :
    (tx = .step ∧ step s = .next t) ∨
    (∃ image entry, tx = .load image entry ∧ loadRefused s.cfg image entry = false ∧ reply = .loadOk ∧
      t = loadedState s.cfg image entry) ∨
    (tx ≠ .step ∧ reply ≠ .loadOk ∧ t = s) := by
  cases tx with
  | load image entry =>
    cases hr : loadRefused s.cfg image entry <;> simp [transact, hr] at h <;> obtain ⟨rfl, rfl⟩ := h
    · exact .inr (.inl ⟨image, entry, rfl, hr, rfl, rfl⟩)
    · exact .inr (.inr ⟨by simp, by simp, rfl⟩)
  | step =>
    obtain ⟨u, hu⟩ := step_next s
    simp only [transact, hu, Host.Outcome.next.injEq, Prod.mk.injEq] at h
    exact .inl ⟨rfl, hu.trans (congrArg _ h.1)⟩
  | _ =>
    simp only [transact, Host.Outcome.next.injEq, Prod.mk.injEq] at h
    obtain ⟨rfl, rfl⟩ := h
    exact .inr (.inr ⟨by simp, by simp, rfl⟩)

end Sys2Proof.Machine
end

