-- ==== Sys2Proof/Tests/Slice0.lean ====
section
/-! SUPPORT. Tests: ill-formed terms the check refuses, words written out from the encoding, one-step tests whose expected
values are the vectors of 95_test_vectors.md, and a witness for the hypotheses of every statement. -/

namespace Sys2Proof.Tests

open Sys2Proof.Machine

/-! ### Helpers -/

/-- K = 8, as in V20, V21 and V29. -/
def capacity8 : Config := ⟨32, 8, .wrap⟩

/-- OVF = FAULT, as in V13 and V30. -/
def faultMode : Config := ⟨32, 2147483648, .fault⟩

/-- The state just after LOAD at the reference configuration. -/
def loaded (image : List Int) (entry : Int := 0) : State := loadedState Config.reference image entry

def after (o : Host.Outcome State Fault Refusal) (s : State) : State :=
  match o with
  | .next t => t
  | .fault _ => s
  | .refused _ => s

/-- What the ports show after one STEP: MEM, SIZE, PC, RUN_STATE, FAULT_CAUSE, FAULT_ADDR. -/
def shown (s : State) : List Int × Nat × Int × RunState × FaultCause × Int :=
  (s.snapshot, s.size, s.pc, s.runState, s.faultCause, s.faultAddr)

def afterStep (s : State) : State := after (step s) s

theorem step_afterStep (s : State) : step s = .next (afterStep s) := by
  obtain ⟨t, h⟩ := step_next s
  simp [afterStep, after, h]

def afterExec (i : Instr) (s : State) : State := after (exec i s) s

theorem exec_afterExec (i : Instr) (s : State) : exec i s = .next (afterExec i s) := by
  obtain ⟨t, h⟩ := exec_next i s
  simp [afterExec, after, h]

/-! ### Well-formedness: one ill-formed term for each field (R54) -/

theorem test_wf_refuses_field_a : Instr.wf 32 (.subleq 2147483648 0 0) = false := by decide
theorem test_wf_refuses_field_b : Instr.wf 32 (.subleq 0 (-2147483649) 0) = false := by decide
theorem test_wf_refuses_field_c : Instr.wf 8 (.subleq 0 0 128) = false := by decide
theorem test_wf_accepts_the_extremes : Instr.wf 32 (.subleq (-2147483648) 2147483647 (-1)) = true := by decide

/-! ### Decoding (R53, R54): words written out cell by cell, C B A from the high bits down -/

theorem test_decode_v1 : decodeTableWord 96 0x00000003_00000001_00000001 = some (.subleq 1 1 3) := by decide
theorem test_decode_signs :
    decodeTableWord 96 0xFFFFFFFF_80000000_7FFFFFFF = some (.subleq 2147483647 (-2147483648) (-1)) := by decide
theorem test_decode_refuses_two_cells : decode [1, 1] = .error (.truncated 2) := by rfl
theorem test_encode_written_out :
    encodeWord 32 (.subleq 1 (-2) 3) = 0x00000003_FFFFFFFE_00000001 := by decide
theorem test_placed_word_runs :
    (afterStep (State.reset.withFetchWord 96 0xFFFFFFFF_00000006_00000006)).snapshot = [6, 6, -1, 0, 0, 0, 0] := by
  decide

/-! ### One step, from the vectors of 95_test_vectors.md -/

/-- Executing steps: V8 (branch on a negative result), V10 (a wrapped result falls through), V14 (the branch uses the latched
c although the step overwrote it), V6 (growth to exactly the operand address). -/
theorem test_subleq_executes :
    shown (afterStep (loaded [3, 4, 9, 5, 1])) = ([3, 4, 9, 5, -4], 5, 9, .running, .none, 0) ∧
    shown (afterStep (loaded [3, 4, -1, 1, -2147483648])) = ([3, 4, -1, 1, 2147483647], 5, 3, .running, .none, 0) ∧
    shown (afterStep (loaded [3, 2, 9, 9])) = ([3, 2, 0, 9], 4, 9, .running, .none, 0) ∧
    shown (afterStep (loaded [6, 6, -1])) = ([6, 6, -1, 0, 0, 0, 0], 7, -1, .running, .none, 0) :=
  ⟨by decide, by decide, by decide, by decide⟩

/-- Faulting steps: V13 on V11's image (OVERFLOW), V19 (A is reported before B), V21 (no growth on a fault). -/
theorem test_subleq_faults :
    shown (afterStep (loadedState faultMode [3, 4, -1, -2147483648, 0] 0))
      = ([3, 4, -1, -2147483648, 0], 5, 0, .faulted, .overflow, 4) ∧
    shown (afterStep (loaded [-2, -3, 0])) = ([-2, -3, 0], 3, 0, .faulted, .negAddr, -2) ∧
    shown (afterStep (loadedState capacity8 [5, 100, 0] 0)) = ([5, 100, 0], 3, 0, .faulted, .capExceeded, 100) :=
  ⟨by decide, by decide, by decide⟩

/-- V4: a partial triple halts. -/
theorem test_partial_triple_halts :
    shown (afterStep (loaded [7, 7, 7, 7] 2)) = ([7, 7, 7, 7], 4, 2, .halted, .none, 0) := by decide

/-- V24: an image longer than K is refused. -/
theorem test_v24_load_refused :
    transact (.load [1, 2, 3]) (loadedState ⟨32, 2, .wrap⟩ [] 0)
      = .next (loadedState ⟨32, 2, .wrap⟩ [] 0, .loadRefused) := by rfl

/-! ### Caller level -/

/-- T8: two lines, the second with a comment. -/
theorem test_t8_program_text :
    Caller.programImage 32 ['1', ' ', '1', '\n', '3', ' ', 'j', 'u', 'n', 'k', ' ', '9'] = [1, 1, 3] := by decide

/-- T5: signs. -/
theorem test_t5_signs : Caller.lineIntegers 32 ['+', '4', ' ', '-', '0', ' ', '-', '7'] = [4, 0, -7] := by decide

/-- T6: a literal that does not fit starts a comment. -/
theorem test_t6_unfitting_literal :
    Caller.lineIntegers 32 ['2', '1', '4', '7', '4', '8', '3', '6', '4', '8', ' ', '5'] = [] := by decide

/-- L1-5: snapshot text. -/
theorem test_snapshot_text :
    Caller.renderSnapshot [3, -2, 0, 7] = ['[', '3', ' ', '-', '2', ' ', '0', ' ', '7', ']'] := by decide

/-! ### Witnesses: states and operands that meet the hypotheses of the statements -/

/-- `loaded [3, 4, 9, 1, 5]` (V7): a reachable state with a whole triple at PC. -/
def v7 : State := loaded [3, 4, 9, 1, 5]

/-- V14's image. -/
def v14 : State := loaded [3, 2, 9, 9]

/-- A triple that writes its own first cell and jumps to itself. -/
def self : State := loaded [3, 0, 0, 9]

/-- V16's image. -/
def v16start : State := loaded [6, 6, 3]

/-- V16 after its first step: PC at grown zeros. -/
def v16 : State := loaded [6, 6, 3, 0, 0, 0, 0] 3

/-- P1's image. -/
def p1 : State := loaded [12, 14, 3, 14, 13, 6, 14, 14, 9, 14, 14, -1, 7, 5, 0]

/-- V30's image and configuration. -/
def v30 : State := loadedState faultMode [12, 14, 3, 14, 13, 6, 14, 14, 9, 14, 14, -1, -2147483648, 5, 0] 0

/-- V30's image with X = 1 and Y = 2^31 - 1. -/
def v30sum : State := loadedState faultMode [12, 14, 3, 14, 13, 6, 14, 14, 9, 14, 14, -1, 1, 2147483647, 0] 0

/-- P5's image. -/
def p5 : State := loaded [9, 5, 3, 10, 10, 0, 10, 10, -1, -12, 0, 0, 9, 11, -1]

/-- P8's image. -/
def p8 : State := loaded [0, 0, 0]

theorem inv_v7 : v7.Inv := by
  constructor <;> first | decide | exact ⟨by decide, rfl⟩

theorem witness_EveryStepKeepsTheInvariant : ∃ s t : State, s.Inv ∧ step s = .next t ∧ t ≠ s :=
  ⟨v7, afterStep v7, inv_v7, step_afterStep _, by decide⟩

theorem witness_ReachableStatesSatisfyTheInvariant :
    Config.reference.Legal ∧ capacity8.Legal ∧ faultMode.Legal ∧ Reachable Config.reference v7 :=
  ⟨by decide, by decide, by decide,
    .transact (.load [3, 4, 9, 1, 5]) (loadedState Config.reference [] 0) _ .loadOk .powerOn rfl⟩

theorem witness_NoTransactionChangesTheParameters :
    transact (.load [6, 6, -1]) v7 = .next (loaded [6, 6, -1], .loadOk) ∧ loaded [6, 6, -1] ≠ v7 :=
  ⟨rfl, by decide⟩

theorem witness_WrapIsTheUniqueFittingCongruentValue :
    2 ≤ 32 ∧ (-2147483648 : Int) = wrapW 32 2147483648 ∧ wrapW 2 5 = 1 ∧ wrapW 2 2 = -2 := by decide

theorem witness_DecodeOfEncodeIsTheInstruction : 2 ≤ 32 ∧ Instr.wf 32 (.subleq (-1) 2147483647 5) = true := by decide

theorem witness_EveryPatternIsOneInstruction : 2 ≤ 8 ∧ 0xFF8000 < 2 ^ (3 * 8) := by decide

theorem witness_PlacedWordIsTheNextInstructionRun : 0xFFFFFFFF_FFFFFFFF_FFFFFFFF < 2 ^ 96 := by decide

/-- A cell in the valid range, the last one in it, and the first one beyond it. -/
theorem witness_MemReadGrowsThenReturnsTheCell :
    4 < v7.size ∧ v7.size ≤ 5 ∧ (v7.memRead 4).1 = 5 ∧ (v7.memRead 5).1 = 0 := by decide

theorem witness_MemWriteStoresTheValueAndNothingElse :
    Memory.wf v7.mem ∧ (0 ≠ 7 ∧ 0 < v7.size) ∧ (5 ≠ 7 ∧ v7.size ≤ 5 ∧ 5 < 7) := by decide

theorem witness_GrowZeroFillsExactlyToTheAddress :
    v7.size ≤ 5 ∧ 4 < v7.size ∧ (v7.grow 5).fetchCell 5 = some 0 ∧ (v7.grow 5).fetchCell 6 = none := by decide

theorem witness_MemoryNeverShrinksAndGrowsWithZeros :
    Memory.wf v7.mem ∧ v7.size ≤ 5 ∧ 5 < (v7.memRead 6).2.size ∧ step v7 = .next (afterStep v7) :=
  ⟨by decide, by decide, by decide, step_afterStep _⟩

/-- An executing step that grows memory, a halting one and a faulting one. -/
theorem witness_ExecutingStepGrowsExactlyToItsOperands :
    (Memory.wf (loaded [6, 6, -1]).mem ∧ (loaded [6, 6, -1]).runState = .running ∧
      (loaded [6, 6, -1]).TripleAtPc 6 6 (-1) ∧ (afterStep (loaded [6, 6, -1])).runState = .running ∧
      step (loaded [6, 6, -1]) = .next (afterStep (loaded [6, 6, -1]))) ∧
    (afterStep (loaded [7, 7, 7, 7] 2)).runState ≠ .running ∧
    (afterStep (loadedState capacity8 [5, 100, 0] 0)).runState ≠ .running :=
  ⟨⟨by decide, by decide, by decide, by decide, step_afterStep _⟩, by decide, by decide⟩

/-- Equal snapshots of states that differ elsewhere. -/
theorem witness_EqualSnapshotsAreEqualMemories :
    v7.Inv ∧ State.Inv { v7 with latch := ⟨1, 2, 3⟩ } ∧
      v7.snapshot = State.snapshot { v7 with latch := ⟨1, 2, 3⟩ } :=
  ⟨inv_v7, by constructor <;> first | decide | exact ⟨by decide, rfl⟩, rfl⟩

theorem witness_EveryStepExecutesHaltsOrFaults :
    v7.runState = .running ∧ (afterStep v7).runState = .running ∧
      (afterStep (loaded [] 0)).runState = .halted ∧ (afterStep (loaded [-1, 0, 3])).runState = .faulted := by decide

theorem witness_StepInATerminalStateDoesNothing :
    (afterStep (loaded [])).runState ≠ .running ∧ (afterStep (loaded [-1, 0, 3])).runState ≠ .running := by decide

/-- PC = -1, PC = SIZE - 2 (the first that fails) and PC = SIZE - 3 (the last that does not). -/
theorem witness_HaltsExactlyWhenTheFetchFails :
    ((loaded [0, 0, 3] (-1)).runState = .running ∧ (loaded [0, 0, 3] (-1)).PcOutOfRange) ∧
    (loaded [7, 7, 7, 7] 2).PcOutOfRange ∧ ¬ (loaded [7, 7, 7, 7] 1).PcOutOfRange := by decide

theorem witness_StepExecutesTheDecodedTripleAtPc :
    v7.runState = .running ∧ v7.TripleAtPc 3 4 9 ∧ decode [3, 4, 9] = .ok (.subleq 3 4 9, []) :=
  ⟨rfl, by decide, rfl⟩

/-- Both operands at the ends of the memory (0 and K - 1), in each overflow mode. -/
theorem witness_SubleqStoresTheDifferenceAndBranches :
    (v7.cfg.Legal ∧ Memory.wf v7.mem ∧ OperandsInMemory v7.cfg 0 2147483647 ∧
      NoOverflow v7.cfg (v7.operand 2147483647) (v7.operand 0) ∧
      -3 = wrapW v7.cfg.cellBits (v7.operand 2147483647 - v7.operand 0)) ∧
    (faultMode.Legal ∧ Memory.wf (loadedState faultMode [3, 4, 9, 1, 5] 0).mem ∧ OperandsInMemory faultMode 3 4 ∧
      NoOverflow faultMode 5 1) := by decide

theorem witness_SubleqChangesOnlyItsDestinationSizeAndPc :
    Memory.wf v7.mem ∧ OperandsInMemory v7.cfg 3 4 ∧ NoOverflow v7.cfg (v7.operand 4) (v7.operand 3) ∧
      exec (.subleq 3 4 9) v7 = .next (afterExec (.subleq 3 4 9) v7) ∧ 0 < v7.size :=
  ⟨by decide, by decide, by decide, exec_afterExec _ _, by decide⟩

/-- The largest difference that fits and the first that does not, in each overflow mode (V11). -/
theorem witness_OverflowWrapsOrFaultsByMode :
    (v7.cfg.Legal ∧ Memory.wf v7.mem ∧ OperandsInMemory v7.cfg 3 4 ∧ Fits 32 (2147483647 - 0)) ∧
    (¬ Fits 32 ((loaded [3, 4, -1, -2147483648, 0]).operand 4 - (loaded [3, 4, -1, -2147483648, 0]).operand 3) ∧
      (loaded [3, 4, -1, -2147483648, 0]).cfg.overflow = .wrap) ∧
    (loadedState faultMode [3, 4, -1, -2147483648, 0] 0).cfg.overflow = .fault := by decide

/-- -1 for A, and -1 for B behind an A at each end of the memory. -/
theorem witness_NegativeOperandAddressFaults :
    (-1 : Int) < 0 ∧ (0 ≤ (7 : Int) ∧ (7 : Int) < capacity8.capacity ∧ (-1 : Int) < 0) ∧
      (afterExec (.subleq 7 (-1) 0) (loadedState capacity8 [] 0)).faultAddr = -1 := by decide

/-- A = K and B = K, with A = K - 1. -/
theorem witness_OperandAddressAtOrAboveCapacityFaults :
    (0 ≤ (8 : Int) ∧ capacity8.capacity ≤ (8 : Int)) ∧ (7 : Int) < capacity8.capacity ∧
    (v7.cfg.capacity = half v7.cfg.cellBits ∧ Instr.wf v7.cfg.cellBits (.subleq 2147483647 2147483647 0) = true ∧
      v7.faultCause ≠ .capExceeded ∧
      exec (.subleq 2147483647 2147483647 0) v7 = .next (afterExec (.subleq 2147483647 2147483647 0) v7)) :=
  ⟨by decide, by decide, by decide, by decide, by decide, exec_afterExec _ _⟩

theorem witness_OverflowFaultOnlyInFaultMode :
    (loadedState faultMode [3, 4, -1, -2147483648, 0] 0).runState = .running ∧ OperandsInMemory faultMode 3 4 ∧
      (afterExec (.subleq 3 4 (-1)) (loadedState faultMode [3, 4, -1, -2147483648, 0] 0)).runState = .faulted ∧
      (afterExec (.subleq 3 4 (-1)) (loadedState faultMode [3, 4, -1, 1, 0] 0)).runState = .running := by decide

/-- A triple for each line of the priority list (V17, V20, V18, V21, V13, V7). -/
theorem witness_FirstFailingCheckDecidesTheOutcome :
    (loaded [-1, 0, 3]).TripleAtPc (-1) 0 3 ∧ (loadedState capacity8 [8, 0, 3] 0).TripleAtPc 8 0 3 ∧
    (loaded [0, -5, 3]).TripleAtPc 0 (-5) 3 ∧ (loadedState capacity8 [7, 8, 0] 0).TripleAtPc 7 8 0 ∧
    (loadedState faultMode [3, 4, -1, -2147483648, 0] 0).TripleAtPc 3 4 (-1) ∧ v7.TripleAtPc 3 4 9 ∧
    v7.runState = .running := by decide

theorem witness_FaultsArePreciseAndTerminal :
    (loaded [-1, 0, 3]).runState = .running ∧ step (loaded [-1, 0, 3]) = .next (afterStep (loaded [-1, 0, 3])) ∧
      (afterStep (loaded [-1, 0, 3])).runState = .faulted :=
  ⟨rfl, step_afterStep _, by decide⟩

/-- A LOAD that lowers SIZE to 0 and a step that grows it. -/
theorem witness_SizeIsBoundedAndWrittenOnlyByLoadAndGrowth :
    v7.Inv ∧ transact (.load []) v7 = .next (loaded [], .loadOk) ∧ (loaded []).size ≠ v7.size ∧
      v16start.Inv ∧ transact .step v16start = .next (afterStep v16start, .status 0) ∧
      (afterStep v16start).size ≠ v16start.size := by
  refine ⟨inv_v7, rfl, by decide, ?_, rfl, by decide⟩
  constructor <;> first | decide | exact ⟨by decide, rfl⟩

/-- A LOAD at the least entry, a fall-through (V7) and a taken branch (V16). -/
theorem witness_PcTakesOnlyTheListedValues :
    transact (.load [] (-2147483648)) v7 = .next (loaded [] (-2147483648), .loadOk) ∧
      (loaded [] (-2147483648)).pc ≠ v7.pc ∧ (afterStep v7).pc = v7.pc + 3 ∧
      transact .step v7 = .next (afterStep v7, .status 0) ∧ (afterStep v16).pc = 0 ∧ v7.Inv :=
  ⟨rfl, by decide, by decide, rfl, by decide, inv_v7⟩

/-- A step that writes FAULT_CAUSE, and a LOAD that clears it. -/
theorem witness_FaultCauseIsNonzeroExactlyWhenFaulted :
    (afterStep (loaded [-1, 0, 3])).faultCause ≠ (loaded [-1, 0, 3]).faultCause ∧
    transact (.load [1, 1, 3]) (afterStep (loaded [-1, 0, 3])) = .next (loaded [1, 1, 3], .loadOk) ∧
    (loaded [1, 1, 3]).faultCause ≠ (afterStep (loaded [-1, 0, 3])).faultCause :=
  ⟨by decide, rfl, by decide⟩

theorem witness_RunStateChangesOnlyAsListed :
    transact .step v7 = .next (afterStep v7, .status 0) ∧ transact .readPc v7 = .next (v7, .pc 0) ∧
      transact (.load []) v7 = .next (loaded [], .loadOk) :=
  ⟨rfl, rfl, rfl⟩

/-- V25: LOAD after a fault. -/
theorem witness_OnlyLoadLeavesHaltedOrFaulted :
    (afterStep (loaded [-1, 0, 3])).runState ≠ .running ∧
      transact (.load [1, 1, 3]) (afterStep (loaded [-1, 0, 3])) = .next (loaded [1, 1, 3], .loadOk) :=
  ⟨by decide, rfl⟩

/-- An image of exactly K cells, with values at both ends of the W-bit range. -/
theorem witness_LoadReplacesTheWholeState :
    [1, -2147483648, 2147483647, 0, 0, 0, 0, 8].length ≤ capacity8.capacity ∧
      (∀ v ∈ [(1 : Int), -2147483648, 2147483647, 0, 0, 0, 0, 8], Fits 32 v) ∧ Fits 32 (-1) := by decide

/-- One cell too many, one value too large, one entry too small; and accepted entries -1 and n. -/
theorem witness_LoadRefusesOversizedOrUnfittingImages :
    capacity8.capacity < [0, 0, 0, 0, 0, 0, 0, 0, 0].length ∧ ¬ Fits 32 2147483648 ∧ ¬ Fits 32 (-2147483649) ∧
      transact (.load [1, 1, 3] (-1)) v7 = .next (loaded [1, 1, 3] (-1), .loadOk) ∧
      transact (.load [1, 1, 3] 3) v7 = .next (loaded [1, 1, 3] 3, .loadOk) :=
  ⟨by decide, by decide, by decide, rfl, rfl⟩

theorem witness_EqualOperandsClearTheCellAndJump :
    Memory.wf v7.mem ∧ OperandsInMemory v7.cfg 0 0 ∧ OperandsInMemory v7.cfg 2147483647 2147483647 := by decide

/-- V14: b = PC + 2. V15's form: b = PC + 1. And b = PC with a branch back to PC. -/
theorem witness_OwnCellsWrittenTakeEffectOnlyAtALaterFetch :
    (v14.Inv ∧ v14.runState = .running ∧ v14.TripleAtPc 3 2 9 ∧ (2 : Int) = v14.pc + 2 ∧
      0 = wrapW v14.cfg.cellBits (v14.operand 2 - v14.operand 3) ∧ step v14 = .next (afterStep v14) ∧
      (afterStep v14).runState = .running) ∧
    (self.Inv ∧ self.TripleAtPc 3 0 0 ∧ (0 : Int) = self.pc ∧ (afterStep self).runState = .running ∧
      (afterStep self).pc = self.pc) ∧
    ((loaded [9, 9, 9, 4, 4, -1] 3).TripleAtPc 4 4 (-1) ∧ (4 : Int) = (loaded [9, 9, 9, 4, 4, -1] 3).pc + 1) := by
  refine ⟨⟨?_, rfl, by decide, by decide, by decide, step_afterStep _, by decide⟩,
    ⟨?_, by decide, by decide, by decide, by decide⟩, by decide, by decide⟩
  · constructor <;> first | decide | exact ⟨by decide, rfl⟩
  · constructor <;> first | decide | exact ⟨by decide, rfl⟩

/-- P5's first step patches the c cell of the next instruction. -/
theorem witness_NextFetchSeesTheWriteOfThisStep :
    p5.Inv ∧ p5.runState = .running ∧ p5.TripleAtPc 9 5 3 ∧
      12 = wrapW p5.cfg.cellBits (p5.operand 5 - p5.operand 9) ∧ step p5 = .next (afterStep p5) ∧
      (afterStep p5).runState = .running ∧ (afterStep p5).fetchInstr = some (.subleq 10 10 12) := by
  refine ⟨?_, rfl, by decide, by decide, step_afterStep _, by decide, by decide⟩
  constructor <;> first | decide | exact ⟨by decide, rfl⟩

/-- Targets -1 and SIZE - 2. -/
theorem witness_TakenBranchOutOfRangeHaltsAtTheNextStep :
    v7.cfg.Legal ∧ Memory.wf v7.mem ∧ v7.runState = .running ∧ OperandsInMemory v7.cfg 4 3 ∧
      NoOverflow v7.cfg (v7.operand 3) (v7.operand 4) ∧
      -4 = wrapW v7.cfg.cellBits (v7.operand 3 - v7.operand 4) ∧
      ((afterExec (.subleq 4 3 3) v7).size : Int) ≤ 3 + 2 ∧
      exec (.subleq 4 3 3) v7 = .next (afterExec (.subleq 4 3 3) v7) ∧
      exec (.subleq 4 3 (-1)) v7 = .next (afterExec (.subleq 4 3 (-1)) v7) :=
  ⟨by decide, by decide, rfl, by decide, by decide, by decide, by decide, exec_afterExec _ _, exec_afterExec _ _⟩

/-- V10, V11, V12 and V28 meet one case each; V9 and V7's layout with 1 - 0 the last two. -/
theorem witness_ResultCornersAtThirtyTwoBits :
    v7.cfg.cellBits = 32 ∧ Memory.wf v7.mem ∧ OperandsInMemory v7.cfg 3 4 ∧
    ((loaded [3, 4, -1, 1, -2147483648]).operand 4 = -2147483648 ∧ (loaded [3, 4, -1, 1, -2147483648]).operand 3 = 1) ∧
    ((loaded [3, 4, -1, -2147483648, 0]).operand 4 = 0 ∧ (loaded [3, 4, -1, -2147483648, 0]).operand 3 = -2147483648) ∧
    ((loaded [3, 4, -1, -1, 2147483647]).operand 4 = 2147483647 ∧ (loaded [3, 4, -1, -1, 2147483647]).operand 3 = -1) ∧
    (loaded [3, 4, 9, 5, 5]).operand 4 - (loaded [3, 4, 9, 5, 5]).operand 3 = 0 ∧
    (loaded [3, 4, 9, 0, 1]).operand 4 - (loaded [3, 4, 9, 0, 1]).operand 3 = 1 ∧
    (loadedState faultMode [3, 4, -1, 1, -2147483648] 0).cfg.overflow = .fault := by decide

/-- V16 after its first step. -/
theorem witness_TripleOfZerosClearsCellZeroAndJumpsThere :
    Memory.wf v16.mem ∧ 0 < v16.cfg.capacity ∧ v16.runState = .running ∧ v16.TripleAtPc 0 0 0 := by decide

/-- P1's layout: Z at 14 holding 0, X at 12, Y at 13. -/
theorem witness_OneInstructionPseudosHaveTheirEffects :
    p1.Inv ∧ p1.runState = .running ∧ OperandsInMemory p1.cfg 14 12 ∧ p1.fetchCell 14 = some 0 ∧ p1.operand 14 = 0 := by
  refine ⟨?_, by decide⟩
  constructor <;> first | decide | exact ⟨by decide, rfl⟩

theorem witness_AddExpansionAdds :
    p1.Inv ∧ p1.runState = .running ∧ OperandsInMemory p1.cfg 14 12 ∧ OperandsInMemory p1.cfg 14 13 ∧
      p1.operand 14 = 0 ∧ p1.cfg.overflow = .wrap ∧ Fits 32 (0 - p1.operand 12) ∧
      Fits 32 (p1.operand 13 + p1.operand 12) :=
  ⟨witness_OneInstructionPseudosHaveTheirEffects.1, by decide⟩

theorem witness_MovExpansionCopies :
    p1.Inv ∧ p1.runState = .running ∧ OperandsInMemory p1.cfg 14 12 ∧ OperandsInMemory p1.cfg 14 13 ∧
      (12 : Int) ≠ 13 ∧ (12 : Int) ≠ 14 ∧ (13 : Int) ≠ 14 ∧ p1.operand 14 = 0 ∧ p1.cfg.overflow = .wrap :=
  ⟨witness_OneInstructionPseudosHaveTheirEffects.1, by decide⟩

/-- V30's image: X = -2^31 under OVF = FAULT (the ADD clause's y may be 12 as well). -/
theorem witness_AddAndMovFaultOnTheLeastValue :
    v30.Inv ∧ v30.runState = .running ∧ OperandsInMemory v30.cfg 14 12 ∧ OperandsInMemory v30.cfg 14 13 ∧
      (12 : Int) ≠ 13 ∧ v30.operand 14 = 0 ∧ v30.cfg.overflow = .fault ∧ v30.operand 12 = -(half v30.cfg.cellBits : Int) := by
  refine ⟨?_, by decide⟩
  constructor <;> first | decide | exact ⟨by decide, rfl⟩

theorem inv_v30 : v30.Inv := witness_AddAndMovFaultOnTheLeastValue.1

/-- V30's image with X = 1 and Y = 2^31 - 1: the negated addend fits and the sum does not. And with x = y = X = 2^30. -/
theorem witness_AddFaultsOnAnUnfittingSumAndMovOntoItselfClears :
    (v30sum.Inv ∧ v30sum.runState = .running ∧ OperandsInMemory v30sum.cfg 14 12 ∧ OperandsInMemory v30sum.cfg 14 13 ∧
      v30sum.operand 14 = 0 ∧ v30sum.cfg.overflow = .fault ∧ Fits 32 (0 - v30sum.operand 12) ∧
      ¬ Fits 32 (v30sum.operand 13 + v30sum.operand 12)) ∧
    Fits 32 (0 - 1073741824) ∧ ¬ Fits 32 (1073741824 + 1073741824) := by
  refine ⟨⟨?_, by decide⟩, by decide⟩
  constructor <;> first | decide | exact ⟨by decide, rfl⟩

/-- A difference that fits (V30's layout: 5 - 0) and one that does not (0 - (-2^31)). -/
theorem witness_SubExpansionSubtractsOrFaults :
    v30.Inv ∧ v30.runState = .running ∧ OperandsInMemory v30.cfg 14 13 ∧ OperandsInMemory v30.cfg 12 14 ∧
      NoOverflow v30.cfg (v30.operand 13) (v30.operand 14) ∧
      ¬ NoOverflow v30.cfg (v30.operand 14) (v30.operand 12) :=
  ⟨inv_v30, by decide⟩

/-- P1's image is the ADD expansion at 0 with Z, x and y beyond it, and one more instruction. -/
theorem witness_ExpansionInMemoryRunsAsItsInstructionsInOrder :
    Memory.wf p1.mem ∧ p1.runState = .running ∧ Pseudo.LiesAt p1 p1.pc (Pseudo.add 14 12 13 p1.pc) ∧
      Pseudo.FallsThrough p1.pc (Pseudo.add 14 12 13 p1.pc) ∧
      Pseudo.SparesCells p1.pc (p1.pc + 3 * (Pseudo.add 14 12 13 p1.pc).length) (Pseudo.add 14 12 13 p1.pc) :=
  ⟨by decide, rfl, ⟨by decide, by decide, by decide, trivial⟩, Pseudo.fallsThrough_add _ _ _ _,
    Pseudo.sparesCells_add _ _ (by decide) (by decide)⟩

theorem witness_EveryTransactionKeepsTheInvariant :
    v7.Inv ∧ transact .step v7 = .next (afterStep v7, .status 0) ∧ capacity8.Legal ∧ faultMode.Legal :=
  ⟨inv_v7, rfl, by decide, by decide⟩

/-- P8 diverges, as its text says. -/
theorem test_p8_diverges : Caller.Diverges p8 := Caller.diverges_of_step_self rfl (by rfl)

/-- Each of the four outcomes: V1 (halted), V17 (faulted), P8 under a budget and under none. -/
theorem witness_EveryRunHasExactlyOneOfTheFourOutcomes :
    (loaded [1, 1, 3]).runState = .running ∧ Caller.RunHasOutcome p8 (some 5) .abandoned ∧
      Caller.RunHasOutcome p8 none .diverges ∧ (Caller.drive 2 (loaded [1, 1, 3])).ended = .halted ∧
      (Caller.drive 1 (loaded [1, 1, 3])).ended = .abandoned ∧ (Caller.drive 1 (loaded [-1, 0, 3])).ended = .faulted :=
  ⟨rfl, ⟨5, rfl, test_p8_diverges 5⟩, ⟨rfl, test_p8_diverges⟩, by decide, by decide, by decide⟩

/-- A LOAD after two STEPs abandons P8 with two instructions executed. -/
theorem test_load_abandons :
    (Caller.follow [.readPc, .step, .snapshot, .step, .load [1, 1, 3], .step] p8).ended = .abandoned ∧
      (Caller.follow [.readPc, .step, .snapshot, .step, .load [1, 1, 3], .step] p8).steps = 2 := by decide

/-- P8's run of one step: `0 0 0` at the reference configuration. -/
theorem witness_UnboundedWrapRunsWithNonnegativeOperandsNeverFault :
    p8.Inv ∧ p8.runState ≠ .faulted ∧ p8.cfg.capacity = half p8.cfg.cellBits ∧ p8.cfg.overflow = .wrap ∧
      (∀ k < 1, ∀ u : State, run k p8 = .next u → u.runState = .running →
        ∀ a b c, u.TripleAtPc a b c → 0 ≤ a ∧ 0 ≤ b) := by
  refine ⟨?_, by decide, by decide, rfl, ?_⟩
  · constructor <;> first | decide | exact ⟨by decide, rfl⟩
  · intro k hk u hu _ a b c h
    obtain rfl : k = 0 := by omega
    rw [run_zero, Host.Outcome.next.injEq] at hu
    subst hu
    have ha : some (0 : Int) = some a := h.2.1
    have hb : some (0 : Int) = some b := h.2.2.1
    cases ha; cases hb
    exact ⟨le_refl _, le_refl _⟩

theorem witness_LatchBetweenStepsInfluencesNothing :
    step v7 = .next (afterStep v7) ∧ v7.runState = .running ∧ ¬ v7.PcOutOfRange ∧ (loaded []).PcOutOfRange :=
  ⟨step_afterStep _, rfl, by decide, by decide⟩

theorem witness_PortsAfterAStepDependOnlyOnPortsBefore :
    v7.Inv ∧ State.Inv { v7 with latch := ⟨1, 2, 3⟩ } ∧ v7.snapshot = State.snapshot { v7 with latch := ⟨1, 2, 3⟩ } ∧
      step v7 = .next (afterStep v7) ∧
      step { v7 with latch := ⟨1, 2, 3⟩ } = .next (afterStep { v7 with latch := ⟨1, 2, 3⟩ }) :=
  ⟨inv_v7, witness_EqualSnapshotsAreEqualMemories.2.1, rfl, step_afterStep _, step_afterStep _⟩

/-- V1 (halted after one instruction), V17 (faulted) and P8 (abandoned). -/
theorem witness_RunReportCountsTheExecutedInstructions :
    (loaded [1, 1, 3]).runState = .running ∧
      (Caller.drive 5 (loaded [1, 1, 3])).ended = .halted ∧ (Caller.drive 5 (loaded [1, 1, 3])).steps = 1 ∧
      (Caller.drive 5 (loaded [-1, 0, 3])).ended = .faulted ∧
      (Caller.drive 5 p8).ended = .abandoned ∧ (Caller.drive 5 p8).steps = 5 := by decide

end Sys2Proof.Tests
end

/-! SUPPORT. The registers of the state (10_state.md R18 to R24): what one step does, as a predicate with a named case per
outcome, and the range and the writers of SIZE, PC, RUN_STATE and FAULT_CAUSE derived from it. -/

namespace Sys2Proof.Machine

/-! ### What a step does to the state it starts from -/

/-- SUBLEQ a, b raises this fault in state `s`: the operand validation fails (R72), or it passes and the difference has no
result (R74). -/
def State.Raises (s : State) (a b : Int) (cause : FaultCause) (addr : Int) : Prop :=
  operandFault s.cfg a b = some (cause, addr) ∨
  (OperandsInMemory s.cfg a b ∧ subtract s.cfg (s.operand b) (s.operand a) = none ∧ cause = .overflow ∧ addr = b)

/-- The four outcomes of a step (R67, R102), each with its condition on the state before. -/
inductive StepOutcome (s : State) : State → Prop
  | stopped (hrun : s.runState ≠ .running) : StepOutcome s s
  | halts (hrun : s.runState = .running) (hpc : s.PcOutOfRange) : StepOutcome s s.halt
  | faults {a b c : Int} {cause : FaultCause} {addr : Int} (hrun : s.runState = .running) (htriple : s.TripleAtPc a b c)
      (hraise : s.Raises a b cause addr) :
      StepOutcome s (State.raiseFault { s with latch := ⟨a, b, c⟩ } cause addr)
  | executes {a b c r : Int} (hrun : s.runState = .running) (htriple : s.TripleAtPc a b c)
      (hops : OperandsInMemory s.cfg a b) (hsub : subtract s.cfg (s.operand b) (s.operand a) = some r) :
      StepOutcome s (subleqResult { s with latch := ⟨a, b, c⟩ } a b c r)

/-- A running step with a triple at PC faults or executes. -/
theorem stepOutcome_of_triple {s t : State} {a b c : Int} (hrun : s.runState = .running) (htriple : s.TripleAtPc a b c)
    (h : step s = .next t) : StepOutcome s t := by
  rw [step_of_triple hrun htriple] at h
  obtain ⟨_, _, _, ⟨rfl, rfl, rfl⟩, ⟨cause, addr, hfault, rfl⟩ | ⟨hops, hsub, rfl⟩ | ⟨hops, r, hsub, rfl⟩⟩ := exec_cases h
  · exact .faults hrun htriple (.inl hfault)
  · exact .faults hrun htriple (.inr ⟨hops, hsub, rfl, rfl⟩)
  · exact .executes hrun htriple hops hsub

theorem stepOutcome_of_step {s t : State} (h : step s = .next t) : StepOutcome s t := by
  obtain ⟨hrun, rfl⟩ | ⟨hrun, hfails, rfl⟩ | ⟨hrun, h0, h2, -⟩ := step_cases h
  · exact .stopped hrun
  · exact .halts hrun (s.fetchFails_iff.mp hfails)
  · obtain ⟨a, b, c, htriple⟩ := State.exists_tripleAtPc h0 h2
    exact stepOutcome_of_triple hrun htriple h

theorem State.Raises.cause_ne_none {s : State} {a b addr : Int} {cause : FaultCause} (h : s.Raises a b cause addr) :
    cause ≠ .none := by
  obtain hfault | ⟨-, -, rfl, -⟩ := h
  · obtain ⟨-, ⟨rfl, -⟩ | ⟨rfl, -⟩⟩ := operandFault_eq_some hfault <;> decide
  · decide

theorem StepOutcome.cfg_eq {s t : State} (h : StepOutcome s t) : t.cfg = s.cfg := by
  cases h with
  | stopped => rfl
  | halts => rfl
  | faults => rfl
  | executes => exact subleqResult_cfg ..

/-! ### SIZE (R18) -/

theorem StepOutcome.size_le_capacity {s t : State} (h : StepOutcome s t) (hs : s.size ≤ s.cfg.capacity) :
    t.size ≤ s.cfg.capacity := by
  cases h with
  | stopped => exact hs
  | halts => exact hs
  | faults => exact hs
  | executes _ _ hops =>
    obtain ⟨ha, hb⟩ := hops
    rw [subleqResult_size]
    simp only
    omega

/-- Only an executing step writes SIZE, and it never lowers it (R40, R41). -/
theorem StepOutcome.executes_of_size_ne {s t : State} (h : StepOutcome s t) (hne : t.size ≠ s.size) :
    s.runState = .running ∧ t.runState = .running ∧ s.size < t.size := by
  cases h with
  | stopped => exact absurd rfl hne
  | halts => exact absurd rfl hne
  | faults => exact absurd rfl hne
  | executes hrun =>
    rw [subleqResult_size] at hne ⊢
    rw [subleqResult_runState]
    simp only at hne ⊢
    exact ⟨hrun, hrun, by omega⟩

/-! ### PC (R20) -/

theorem Memory.read_eq_unlisted_or_mem (m : Memory) (i : Nat) : read m i = unlisted ∨ (i, read m i) ∈ m := by
  induction m with
  | nil => exact .inl rfl
  | cons p m ih =>
    obtain ⟨j, v⟩ := p
    by_cases hji : j = i
    · simp [read, hji]
    · simpa [read, hji, Ne.symm hji] using ih

/-- Every cell of the valid range holds a W-bit value (R17), listed or not. -/
theorem State.CellsInRange.fits_fetchCell {s : State} (h : s.CellsInRange) {i : Nat} {v : Int}
    (hv : s.fetchCell i = some v) : Fits s.cfg.cellBits v := by
  unfold fetchCell at hv
  split at hv
  · obtain rfl := Option.some.inj hv
    obtain h0 | hmem := Memory.read_eq_unlisted_or_mem s.mem i
    · rw [h0]; exact fits_zero _
    · exact (h _ hmem).2
  · exact absurd hv nofun

/-- C fits W bits, and PC + 3 is at most SIZE, hence at most K: neither write to PC leaves the range or wraps. -/
theorem State.Inv.nextPc_inRange {s : State} (hs : s.Inv) {a b c : Int} (htriple : s.TripleAtPc a b c) (r : Int) :
    -(half s.cfg.cellBits : Int) ≤ nextPc s.pc r c ∧ nextPc s.pc r c ≤ half s.cfg.cellBits := by
  obtain ⟨h0, hlast, -⟩ := State.fetchInstr_of_triple htriple
  obtain ⟨-, -, -, hc⟩ := htriple
  have hcfits := hs.cells.fits_fetchCell hc
  have hcap := hs.legal.2
  have hsize := hs.sizeBounded
  rw [nextPc_eq]
  split
  · exact ⟨hcfits.1, hcfits.2.le⟩
  · omega

theorem StepOutcome.pcInRange {s t : State} (h : StepOutcome s t) (hs : s.Inv) : t.PcInRange := by
  cases h with
  | stopped => exact hs.pcRange
  | halts => exact hs.pcRange
  | faults => exact hs.pcRange
  | executes _ htriple =>
    simpa only [State.PcInRange, subleqResult_cfg, subleqResult_pc] using hs.nextPc_inRange htriple _

/-- Only an executing step writes PC, with the C of its triple or with PC + 3 (R76). -/
theorem StepOutcome.pc_eq_of_pc_ne {s t : State} (h : StepOutcome s t) (hne : t.pc ≠ s.pc) :
    ∃ a b c, s.TripleAtPc a b c ∧ (t.pc = c ∨ t.pc = s.pc + 3) := by
  cases h with
  | stopped => exact absurd rfl hne
  | halts => exact absurd rfl hne
  | faults => exact absurd rfl hne
  | executes _ htriple =>
    refine ⟨_, _, _, htriple, ?_⟩
    rw [subleqResult_pc, nextPc_eq]
    exact ite_eq_or_eq ..

/-! ### RUN_STATE and FAULT_CAUSE (R22 to R24) -/

theorem RunState.ofCode_code (r : RunState) : RunState.ofCode r.code = some r := by
  cases r <;> rfl

theorem RunState.ofCode_three : RunState.ofCode 3 = none := rfl

theorem FaultCause.code_eq_zero_iff (cause : FaultCause) : cause.code = 0 ↔ cause = .none := by
  cases cause <;> decide

theorem State.FaultRecordOk.of_running {s : State} (h : s.FaultRecordOk) (hrun : s.runState = .running) :
    s.faultCause = .none ∧ s.faultAddr = 0 := by
  unfold FaultRecordOk at h
  cases hcause : s.faultCause <;> simp_all

theorem State.FaultRecordOk.cause_ne_none_iff {s : State} (h : s.FaultRecordOk) :
    s.faultCause ≠ .none ↔ s.runState = .faulted := by
  unfold FaultRecordOk at h
  cases hcause : s.faultCause <;> simp_all

theorem State.faultRecordOk_of_clear {s : State} (hrun : s.runState ≠ .faulted) (hcause : s.faultCause = .none)
    (haddr : s.faultAddr = 0) : s.FaultRecordOk := by
  simp only [FaultRecordOk, hcause]
  exact ⟨hrun, haddr⟩

/-- A raised fault records the address that its cause asks for (R108). -/
theorem State.Raises.faultRecordOk {s : State} {a b addr : Int} {cause : FaultCause} (h : s.Raises a b cause addr)
    (l : Latch) : (State.raiseFault { s with latch := l } cause addr).FaultRecordOk := by
  obtain hfault | ⟨⟨-, hb⟩, hsub, rfl, rfl⟩ := h
  · obtain ⟨-, ⟨rfl, hneg⟩ | ⟨rfl, -, hcap⟩⟩ := operandFault_eq_some hfault
    · exact ⟨rfl, hneg⟩
    · exact ⟨rfl, hcap⟩
  · exact ⟨rfl, ((subtract_eq_none_iff ..).mp hsub).1, hb⟩

theorem StepOutcome.faultRecordOk {s t : State} (h : StepOutcome s t) (hs : s.FaultRecordOk) : t.FaultRecordOk := by
  cases h with
  | stopped => exact hs
  | halts hrun =>
    obtain ⟨hcause, haddr⟩ := hs.of_running hrun
    exact State.faultRecordOk_of_clear nofun hcause haddr
  | faults _ _ hraise => exact hraise.faultRecordOk _
  | executes hrun =>
    obtain ⟨hcause, haddr⟩ := hs.of_running hrun
    exact State.faultRecordOk_of_clear (by simp [hrun]) (by simpa using hcause) (by simpa using haddr)

theorem transact_keeps_faultRecordOk {tx : Transaction} {s t : State} {reply : Reply} (hs : s.FaultRecordOk)
    (h : transact tx s = .next (t, reply)) : t.FaultRecordOk := by
  obtain ⟨-, hstep⟩ | ⟨_, _, -, -, -, rfl⟩ | ⟨-, -, rfl⟩ := transact_cases h
  · exact (stepOutcome_of_step hstep).faultRecordOk hs
  · exact State.faultRecordOk_of_clear nofun rfl rfl
  · exact hs

theorem Reachable.faultRecordOk {cfg : Config} {s : State} (h : Reachable cfg s) : s.FaultRecordOk := by
  induction h with
  | powerOn => exact State.faultRecordOk_of_clear nofun rfl rfl
  | transact _ _ _ _ _ htx ih => exact transact_keeps_faultRecordOk ih htx

/-- Only a step that faults writes FAULT_CAUSE. -/
theorem StepOutcome.faults_of_faultCause_ne {s t : State} (h : StepOutcome s t) (hne : t.faultCause ≠ s.faultCause) :
    s.runState = .running ∧ t.runState = .faulted := by
  cases h with
  | stopped => exact absurd rfl hne
  | halts => exact absurd rfl hne
  | faults hrun => exact ⟨hrun, rfl⟩
  | executes => exact absurd (subleqResult_faultCause ..) hne

/-! ### The obligations -/

/-- Settles O20: by the three cases of a transaction, SIZE after a step being bounded by the operand check. -/
theorem sizeIsBoundedAndWrittenOnlyByLoadAndGrowth : Obligations.SizeIsBoundedAndWrittenOnlyByLoadAndGrowth := by
  intro tx s t reply hs h
  obtain ⟨rfl, hstep⟩ | ⟨image, entry, rfl, haccept, rfl, rfl⟩ | ⟨-, -, rfl⟩ := transact_cases h
  · have hout := stepOutcome_of_step hstep
    rw [hout.cfg_eq]
    exact ⟨hout.size_le_capacity hs.sizeBounded, fun hne => .inr ⟨rfl, hout.executes_of_size_ne hne⟩⟩
  · exact ⟨((loadRefused_eq_false_iff ..).mp haccept).1, fun _ => .inl ⟨image, entry, rfl, rfl, rfl⟩⟩
  · exact ⟨hs.sizeBounded, fun hne => absurd rfl hne⟩

/-- Settles O21: an accepted entry and a fetched C fit W bits, and PC + 3 is at most K after a valid fetch. -/
theorem pcTakesOnlyTheListedValues : Obligations.PcTakesOnlyTheListedValues := by
  intro tx s t reply hs h
  obtain ⟨rfl, hstep⟩ | ⟨image, entry, rfl, haccept, rfl, rfl⟩ | ⟨-, -, rfl⟩ := transact_cases h
  · have hout := stepOutcome_of_step hstep
    exact ⟨hout.pcInRange hs, fun hne => .inr ⟨rfl, hout.pc_eq_of_pc_ne hne⟩⟩
  · obtain ⟨-, -, hlo, hhi⟩ := (loadRefused_eq_false_iff ..).mp haccept
    exact ⟨⟨hlo, hhi.le⟩, fun _ => .inl ⟨image, rfl, rfl⟩⟩
  · exact ⟨hs.pcRange, fun hne => absurd rfl hne⟩

/-- Settles O35: the fault record agrees with RUN_STATE at power-on and every transaction keeps that agreement. -/
theorem faultCauseIsNonzeroExactlyWhenFaulted : Obligations.FaultCauseIsNonzeroExactlyWhenFaulted := by
  refine ⟨rfl, rfl, rfl, rfl, fun cfg s _ hreach => ?_, fun tx s t reply h hne => ?_⟩
  · rw [ne_eq, FaultCause.code_eq_zero_iff]
    exact hreach.faultRecordOk.cause_ne_none_iff
  · obtain ⟨rfl, hstep⟩ | ⟨_, _, -, -, rfl, rfl⟩ | ⟨-, -, rfl⟩ := transact_cases h
    · exact .inr ⟨rfl, (stepOutcome_of_step hstep).faults_of_faultCause_ne hne⟩
    · exact .inl ⟨rfl, rfl⟩
    · exact absurd rfl hne

/-- Settles O36: the outcomes of a step and the other two cases of a transaction are the list of R23. -/
theorem runStateChangesOnlyAsListed : Obligations.RunStateChangesOnlyAsListed := by
  intro tx s t reply h
  obtain ⟨rfl, hstep⟩ | ⟨image, entry, rfl, -, rfl, rfl⟩ | ⟨hne, -, rfl⟩ := transact_cases h
  · cases stepOutcome_of_step hstep with
    | stopped hrun => exact .inr (.inl ⟨rfl, hrun, rfl⟩)
    | halts hrun hpc => exact .inl ⟨rfl, hrun, .inr (.inl ⟨rfl, hpc⟩)⟩
    | faults hrun _ hraise => exact .inl ⟨rfl, hrun, .inr (.inr ⟨rfl, hraise.cause_ne_none⟩)⟩
    | executes hrun htriple =>
      exact .inl ⟨rfl, hrun, .inl ⟨(subleqResult_runState ..).trans hrun, _, _, _, htriple⟩⟩
  · exact .inr (.inr (.inl ⟨image, entry, rfl, rfl, rfl⟩))
  · exact .inr (.inr (.inr ⟨hne, rfl⟩))

/-- Settles O22: reading a code back is the identity, so 3, which reads back as nothing, is the code of no state. -/
theorem runStateEncodingReservesThree : Obligations.RunStateEncodingReservesThree := by
  refine ⟨rfl, rfl, rfl, RunState.ofCode_code, RunState.ofCode_three, fun r hr => ?_⟩
  have hback := RunState.ofCode_code r
  rw [hr, RunState.ofCode_three] at hback
  exact absurd hback nofun

end Sys2Proof.Machine

/-! SUPPORT. The memory primitives (20_memory.md R37 to R41): what growth leaves, keeps and creates, the accesses that grow,
and the SIZE and the new cells of a step. -/

namespace Sys2Proof.Machine

/-! ### Growth (R39, R40) -/

theorem State.touch_of_lt {s : State} {x : Nat} (h : x < s.size) : s.touch x = s := if_neg (Nat.not_le.mpr h)

theorem State.touch_of_le {s : State} {x : Nat} (h : s.size ≤ x) : s.touch x = s.grow x := if_pos h

theorem State.lt_touch_size (s : State) (x : Nat) : x < (s.touch x).size := by
  rw [touch_size]; omega

theorem State.size_le_touch_size (s : State) (x : Nat) : s.size ≤ (s.touch x).size := by
  rw [touch_size]; omega

/-- A second access to a cell does not grow. -/
@[simp] theorem State.touch_touch (s : State) (x : Nat) : (s.touch x).touch x = s.touch x :=
  touch_of_lt (s.lt_touch_size x)

theorem State.fetchCell_touch_old {s : State} {x i : Nat} (h : i < s.size) : (s.touch x).fetchCell i = s.fetchCell i := by
  rw [fetchCell_touch, if_pos h]

theorem State.fetchCell_touch_new {s : State} {x i : Nat} (hnew : s.size ≤ i) (hvalid : i < (s.touch x).size) :
    (s.touch x).fetchCell i = some 0 := by
  rw [touch_size] at hvalid
  rw [fetchCell_touch, if_neg (by omega), if_pos (by omega)]

/-- Growth changes no register but SIZE. -/
theorem State.touch_registers (s : State) (x : Nat) : { s.touch x with mem := s.mem, size := s.size } = s := by
  unfold touch; split <;> rfl

/-! ### The accesses (R37, R38) -/

theorem State.fetchCell_memRead (s : State) (x : Nat) : (s.memRead x).2.fetchCell x = some (s.memRead x).1 :=
  if_pos (s.lt_touch_size x)

theorem State.fetchCell_memWrite_same {s : State} (h : Memory.wf s.mem) (x : Nat) (v : Int) :
    (s.memWrite x v).fetchCell x = some v := by
  rw [fetchCell_memWrite h, if_pos rfl]

theorem State.fetchCell_memWrite_ne {s : State} (h : Memory.wf s.mem) {x i : Nat} (v : Int) (hne : i ≠ x) :
    (s.memWrite x v).fetchCell i = (s.touch x).fetchCell i := by
  rw [fetchCell_memWrite h, if_neg hne]

/-- A write changes no register but SIZE. -/
theorem State.memWrite_registers (s : State) (x : Nat) (v : Int) :
    { s.memWrite x v with mem := s.mem, size := s.size } = s := s.touch_registers x

/-! ### The step (R40, R41) -/

theorem StepOutcome.size_le {s t : State} (h : StepOutcome s t) : s.size ≤ t.size := by
  by_cases heq : t.size = s.size
  · exact heq.ge
  · exact (h.executes_of_size_ne heq).2.2.le

/-- A step over the triple a b c that ends in RUNNING has executed it: a fault would end it in FAULTED. -/
theorem eq_subleqResult_of_executed {s t : State} {a b c : Int} (hrun : s.runState = .running)
    (htriple : s.TripleAtPc a b c) (h : step s = .next t) (htrun : t.runState = .running) :
    ∃ r, t = subleqResult { s with latch := ⟨a, b, c⟩ } a b c r := by
  rw [step_of_triple hrun htriple] at h
  obtain ⟨_, _, _, ⟨rfl, rfl, rfl⟩, ⟨_, _, -, rfl⟩ | ⟨-, -, rfl⟩ | ⟨-, r, -, rfl⟩⟩ := exec_cases h
  · exact absurd htrun nofun
  · exact absurd htrun nofun
  · exact ⟨r, rfl⟩

/-- The cells an executed SUBLEQ creates are 0, its destination apart. -/
theorem subleqResult_fetchCell_new {s : State} (h : Memory.wf s.mem) {a b c r : Int} {i : Nat} (hnew : s.size ≤ i)
    (hvalid : i < (subleqResult s a b c r).size) (hne : i ≠ b.toNat) :
    (subleqResult s a b c r).fetchCell i = some 0 := by
  rw [subleqResult_size] at hvalid
  rw [subleqResult_fetchCell h, if_neg hne, if_neg (by omega), if_pos (by omega)]

/-! ### The obligations -/

/-- Settles O14: growth fills with zeros and only adds cells, a step changes SIZE by executing alone, and of the other
transactions only an accepted LOAD changes the state. -/
theorem memoryNeverShrinksAndGrowsWithZeros : Obligations.MemoryNeverShrinksAndGrowsWithZeros := by
  refine ⟨fun s x => ⟨s.size_le_touch_size x, fun i => State.fetchCell_touch_new⟩,
    fun s x v hwf => ⟨s.size_le_touch_size x, fun i hne hnew hvalid => ?_⟩,
    fun s t h => (stepOutcome_of_step h).size_le, fun tx s t reply h hlt => ?_⟩
  · rw [State.fetchCell_memWrite_ne hwf v hne]
    exact State.fetchCell_touch_new hnew hvalid
  · obtain ⟨-, hstep⟩ | ⟨image, entry, rfl, -, rfl, -⟩ | ⟨-, -, rfl⟩ := transact_cases h
    · exact absurd (stepOutcome_of_step hstep).size_le (Nat.not_le.mpr hlt)
    · exact ⟨image, entry, rfl, rfl⟩
    · exact absurd hlt (Nat.lt_irrefl _)

/-- Settles O15: an executed triple leaves `subleqResult`, and a step that changes SIZE ends in RUNNING. -/
theorem executingStepGrowsExactlyToItsOperands : Obligations.ExecutingStepGrowsExactlyToItsOperands := by
  refine fun s t hwf hrun h => ⟨fun a b c htriple htrun => ?_, fun hstop => ?_⟩
  · obtain ⟨r, rfl⟩ := eq_subleqResult_of_executed hrun htriple h htrun
    exact ⟨subleqResult_size .., fun i => subleqResult_fetchCell_new (s := { s with latch := ⟨a, b, c⟩ }) hwf⟩
  · by_contra hne
    exact hstop ((stepOutcome_of_step h).executes_of_size_ne hne).2.1

/-- Settles O11: the read returns the cell of the touched state, which is `s` or the grown state, whose new cell is 0. -/
theorem memReadGrowsThenReturnsTheCell : Obligations.MemReadGrowsThenReturnsTheCell := by
  intro s x
  have hcell := s.fetchCell_memRead x
  refine ⟨hcell, fun hlt => ?_, fun hle => ⟨State.touch_of_le hle, ?_⟩⟩
  · have hsame : (s.memRead x).2 = s := State.touch_of_lt hlt
    exact ⟨hsame, by rwa [hsame] at hcell⟩
  · have hzero : (s.memRead x).2.fetchCell x = some 0 := State.fetchCell_touch_new hle (s.lt_touch_size x)
    exact Option.some.inj (hcell.symm.trans hzero)

/-- Settles O12: the written cell holds the value, and every other cell is that of the touched state. -/
theorem memWriteStoresTheValueAndNothingElse : Obligations.MemWriteStoresTheValueAndNothingElse := by
  refine fun s x v hwf => ⟨State.fetchCell_memWrite_same hwf x v, s.touch_size x, fun i hne hold => ?_,
    fun i hne hnew hlt => ?_, s.memWrite_registers x v, ?_⟩
  · rw [State.fetchCell_memWrite_ne hwf v hne, State.fetchCell_touch_old hold]
  · rw [State.fetchCell_memWrite_ne hwf v hne, State.fetchCell_touch_new hnew (hlt.trans (s.lt_touch_size x))]
  · rw [State.memWrite_size, State.memRead_snd, State.touch_touch]

/-- Settles O13: beyond SIZE, Grow is the growth of an access. -/
theorem growZeroFillsExactlyToTheAddress : Obligations.GrowZeroFillsExactlyToTheAddress := by
  intro s x hle
  rw [← State.touch_of_le hle]
  have hsize : (s.touch x).size = x + 1 := by rw [State.touch_of_le hle, State.grow_size]
  exact ⟨hsize, fun i => State.fetchCell_touch_old,
    fun i hnew hlast => State.fetchCell_touch_new hnew (by omega), s.touch_registers x⟩

end Sys2Proof.Machine

/-! SUPPORT. Decoding a word of three cells (30_encoding.md R53 to R58): the cells taken from a word are W-bit values, three
cells are the encoding of the instruction they decode to, and an instruction is well formed when its cells are. -/

namespace Sys2Proof

@[simp] theorem cellsOfWord_length (W n w : Nat) : (cellsOfWord W n w).length = n := by
  induction n generalizing w with
  | zero => rfl
  | succ n ih => rw [cellsOfWord, List.length_cons, ih]

theorem fits_of_mem_cellsOfWord {W n w : Nat} (h : 1 ≤ W) {v : Int} (hv : v ∈ cellsOfWord W n w) : Fits W v := by
  induction n generalizing w with
  | zero => exact absurd hv List.not_mem_nil
  | succ n ih =>
    rw [cellsOfWord, List.mem_cons] at hv
    obtain rfl | htail := hv
    · exact fits_cellOfBits h w
    · exact ih htail

/-- R54: an instruction is well formed when each of its cells is a W-bit value. -/
theorem Instr.wf_iff_forall_mem_encode (W : Nat) (i : Instr) : i.wf W = true ↔ ∀ v ∈ encode i, Fits W v := by
  cases i with
  | subleq a b c => simp [Instr.wf, encode, and_assoc]

/-- R55: any three cells decode to an instruction, nothing is left over, and they are its encoding. -/
theorem exists_decode_eq_ok {cells : List Int} (h : cells.length = instrCells) :
    ∃ i, decode cells = .ok (i, []) ∧ encode i = cells := by
  obtain ⟨a, b, c, rfl⟩ := List.length_eq_three.mp h
  exact ⟨.subleq a b c, rfl, rfl⟩

/-- Settles O9: the word's three cells are the encoding of one instruction, each fits W bits, and they make up the word
again. -/
theorem everyPatternIsOneInstruction : Obligations.EveryPatternIsOneInstruction := by
  intro W w hW hw
  obtain ⟨i, hdecode, hencode⟩ := exists_decode_eq_ok (cellsOfWord_length W instrCells w)
  refine ⟨i, hdecode, ?_, ?_⟩
  · rw [Instr.wf_iff_forall_mem_encode, hencode]
    exact fun v => fits_of_mem_cellsOfWord (by omega)
  · calc encodeWord W i = wordOfCells W (cellsOfWord W instrCells w) := by rw [encodeWord, hencode]
      _ = w % 2 ^ (instrCells * W) := wordOfCells_cellsOfWord ..
      _ = w := Nat.mod_eq_of_lt hw

end Sys2Proof

/-! SUPPORT. SUBLEQ and the step around it (40_subleq.md R67 to R82): the two steps that execute nothing, the subtraction by
overflow mode, what an executed SUBLEQ leaves, and the order of the checks that can stop it. -/

namespace Sys2Proof.Machine

/-! ### Steps that execute nothing (R68, R69) -/

theorem step_of_not_running {s : State} (hstop : s.runState ≠ .running) : step s = .next s := by
  obtain ⟨t, h⟩ := step_next s
  obtain ⟨-, rfl⟩ | ⟨hrun, -⟩ | ⟨hrun, -⟩ := step_cases h
  · exact h
  · exact absurd hrun hstop
  · exact absurd hrun hstop

/-- A step out of the fetchable range is the halt. -/
theorem step_of_pcOutOfRange {s : State} (hrun : s.runState = .running) (hpc : s.PcOutOfRange) :
    step s = .next s.halt := by
  obtain ⟨t, h⟩ := step_next s
  obtain ⟨hstop, -⟩ | ⟨-, -, rfl⟩ | ⟨-, h0, hlast, -⟩ := step_cases h
  · exact absurd hrun hstop
  · exact h
  · exact absurd hpc (by omega)

/-- A fetched triple ends the step in RUNNING or FAULTED, so a step from RUNNING ends in HALTED by the halt alone. -/
theorem StepOutcome.pcOutOfRange_of_halted {s t : State} (h : StepOutcome s t) (hrun : s.runState = .running)
    (hhalted : t.runState = .halted) : s.PcOutOfRange := by
  cases h with
  | stopped hstop => exact absurd hrun hstop
  | halts _ hpc => exact hpc
  | faults => exact absurd hhalted nofun
  | executes =>
    rw [subleqResult_runState] at hhalted
    exact absurd (hrun.symm.trans hhalted) nofun

/-! ### The subtraction (R74) -/

theorem subtract_of_wrap {cfg : Config} (hmode : cfg.overflow = .wrap) (vb va : Int) :
    subtract cfg vb va = some (wrapW cfg.cellBits (vb - va)) := by
  simp only [subtract, hmode]

/-- A difference that fits is exact in both modes. -/
theorem subtract_of_fits {cfg : Config} {vb va : Int} (hW : 1 ≤ cfg.cellBits) (hfit : Fits cfg.cellBits (vb - va)) :
    subtract cfg vb va = some (vb - va) := by
  rw [subtract_of_noOverflow hW (.inr hfit), wrapW_of_fits hW hfit]

/-- Equal operands give 0 in both modes, at every width. -/
theorem subtract_self (cfg : Config) (v : Int) : subtract cfg v v = some 0 := by
  unfold subtract
  cases cfg.overflow with
  | wrap => simp [wrapW]
  | fault => simp only [Int.sub_self, if_pos (fits_zero _)]

/-- A subtrahend and a minuend of W bits have a difference of W + 1 bits. -/
theorem diff_bounds_of_fits {W : Nat} (hW : 1 ≤ W) {vb va : Int} (hb : Fits W vb) (ha : Fits W va) :
    -((2 : Int) ^ W - 1) ≤ vb - va ∧ vb - va ≤ (2 : Int) ^ W - 1 := by
  have hpow : (2 : Int) ^ W = 2 * half W := by exact_mod_cast two_pow_eq_two_half hW
  omega

/-- Every operand is a W-bit value, the 0 beyond SIZE too (R17, R19). -/
theorem State.CellsInRange.fits_operand {s : State} (h : s.CellsInRange) (x : Int) : Fits s.cfg.cellBits (s.operand x) := by
  unfold State.operand
  cases hcell : s.fetchCell x.toNat with
  | none => exact fits_zero _
  | some v => exact h.fits_fetchCell hcell

/-! ### SUBLEQ with both operands in memory (R73 to R76) -/

/-- Whatever result the subtraction has, SUBLEQ stores it in cell b and branches on its sign. -/
theorem exec_stores_and_branches {s : State} {a b r : Int} (c : Int) (hwf : Memory.wf s.mem)
    (hops : OperandsInMemory s.cfg a b) (hsub : subtract s.cfg (s.operand b) (s.operand a) = some r) :
    ∃ t, exec (.subleq a b c) s = .next t ∧ t.fetchCell b.toNat = some r ∧
      t.pc = (if r ≤ 0 then c else s.pc + 3) ∧
      t.size = max s.size (max (a.toNat + 1) (b.toNat + 1)) ∧ t.runState = s.runState :=
  ⟨subleqResult s a b c r, exec_of_subtract c hops hsub, by rw [subleqResult_fetchCell hwf, if_pos rfl],
    nextPc_eq .., subleqResult_size .., subleqResult_runState ..⟩

theorem exec_of_overflow {s : State} {a b : Int} (c : Int) (hops : OperandsInMemory s.cfg a b)
    (hmode : s.cfg.overflow = .fault) (hfit : ¬ Fits s.cfg.cellBits (s.operand b - s.operand a)) :
    exec (.subleq a b c) s = .next (s.raiseFault .overflow b) := by
  have hsub := (subtract_eq_none_iff s.cfg (s.operand b) (s.operand a)).mpr ⟨hmode, hfit⟩
  simp only [exec, execSubleq_eq, (operandFault_eq_none_iff ..).mpr hops, hsub]

/-! ### The order of the checks (R72, R109) -/

theorem operandFault_eq_ite (cfg : Config) (a b : Int) :
    operandFault cfg a b =
      if a < 0 then some (.negAddr, a)
      else if cfg.capacity ≤ a then some (.capExceeded, a)
      else if b < 0 then some (.negAddr, b)
      else if cfg.capacity ≤ b then some (.capExceeded, b)
      else none := by
  unfold operandFault addrFault
  split_ifs <;> rfl

/-- What SUBLEQ leaves in RUN_STATE and the fault record: the first check that holds says it. -/
theorem exec_outcome {s t : State} {a b c : Int} (h : exec (.subleq a b c) s = .next t) :
    (t.runState, t.faultCause, t.faultAddr) =
      if a < 0 then (.faulted, .negAddr, a)
      else if s.cfg.capacity ≤ a then (.faulted, .capExceeded, a)
      else if b < 0 then (.faulted, .negAddr, b)
      else if s.cfg.capacity ≤ b then (.faulted, .capExceeded, b)
      else if s.cfg.overflow = .fault ∧ ¬ Fits s.cfg.cellBits (s.operand b - s.operand a) then
        (.faulted, .overflow, b)
      else (s.runState, s.faultCause, s.faultAddr) := by
  have hpass (hops : OperandsInMemory s.cfg a b) :
      ¬ a < 0 ∧ ¬ (s.cfg.capacity : Int) ≤ a ∧ ¬ b < 0 ∧ ¬ (s.cfg.capacity : Int) ≤ b := by omega
  obtain ⟨_, _, _, ⟨rfl, rfl, rfl⟩, ⟨cause, addr, hfault, rfl⟩ | ⟨hops, hsub, rfl⟩ | ⟨hops, r, hsub, rfl⟩⟩ := exec_cases h
  · rw [operandFault_eq_ite] at hfault
    split_ifs at hfault ⊢ <;> cases hfault <;> rfl
  · obtain ⟨ha, ha', hb, hb'⟩ := hpass hops
    rw [if_neg ha, if_neg ha', if_neg hb, if_neg hb', if_pos ((subtract_eq_none_iff ..).mp hsub)]
    rfl
  · obtain ⟨ha, ha', hb, hb'⟩ := hpass hops
    have hresult : subtract s.cfg (s.operand b) (s.operand a) ≠ none := by simp [hsub]
    rw [if_neg ha, if_neg ha', if_neg hb, if_neg hb', if_neg (mt (subtract_eq_none_iff ..).mpr hresult),
      subleqResult_runState, subleqResult_faultCause, subleqResult_faultAddr]

/-! ### The obligations -/

/-- Settles O25: out of the fetchable range the step is the halt, and no other outcome of a running step is HALTED. -/
theorem haltsExactlyWhenTheFetchFails : Obligations.HaltsExactlyWhenTheFetchFails := by
  refine fun s hrun => ⟨step_of_pcOutOfRange hrun, fun t h =>
    ⟨(stepOutcome_of_step h).pcOutOfRange_of_halted hrun, fun hpc => ?_⟩⟩
  rw [step_of_pcOutOfRange hrun hpc] at h
  obtain rfl := Host.Outcome.next.inj h
  rfl

/-- Settles O27: without OVERFLOW the subtraction has the wrapped difference as its result. -/
theorem subleqStoresTheDifferenceAndBranches : Obligations.SubleqStoresTheDifferenceAndBranches := by
  rintro s a b c r ⟨hW, -⟩ hwf hops hno rfl
  exact exec_stores_and_branches c hwf hops (subtract_of_noOverflow (by omega) hno)

/-- Settles O29: the operands are W-bit values, and each mode says what the subtraction answers. -/
theorem overflowWrapsOrFaultsByMode : Obligations.OverflowWrapsOrFaultsByMode := by
  rintro s a b c ⟨hW2, -⟩ hwf hops
  have hW : 1 ≤ s.cfg.cellBits := by omega
  refine ⟨fun hcells => diff_bounds_of_fits hW (hcells.fits_operand b) (hcells.fits_operand a), fun hfit => ?_,
    fun _ hmode => ?_, fun hfit hmode => exec_of_overflow c hops hmode hfit⟩
  · obtain ⟨t, hexec, hcell, -⟩ := exec_stores_and_branches c hwf hops (subtract_of_fits hW hfit)
    exact ⟨t, hexec, hcell⟩
  · obtain ⟨t, hexec, hcell, -⟩ := exec_stores_and_branches c hwf hops (subtract_of_wrap hmode ..)
    exact ⟨t, hexec, hcell⟩

/-- Settles O33: a terminal state is kept, a failed fetch halts, and a fetched triple ends as its first failing check says. -/
theorem firstFailingCheckDecidesTheOutcome : Obligations.FirstFailingCheckDecidesTheOutcome := by
  refine fun s t h => ⟨fun hstop => ?_, fun hrun hpc => ?_, fun a b c hrun htriple => ?_⟩
  · rw [step_of_not_running hstop] at h
    obtain rfl := Host.Outcome.next.inj h
    exact ⟨rfl, rfl, rfl⟩
  · rw [step_of_pcOutOfRange hrun hpc] at h
    obtain rfl := Host.Outcome.next.inj h
    exact ⟨rfl, rfl, rfl⟩
  · rw [step_of_triple hrun htriple] at h
    rw [← hrun]
    exact exec_outcome (s := { s with latch := ⟨a, b, c⟩ }) h

/-- Settles O40: a cell less itself is 0, and 0 takes the branch. -/
theorem equalOperandsClearTheCellAndJump : Obligations.EqualOperandsClearTheCellAndJump := by
  intro s a c hwf hops
  obtain ⟨t, hexec, hcell, hpc, -, hrun⟩ := exec_stores_and_branches c hwf hops (subtract_self ..)
  exact ⟨t, hexec, hcell, hpc, hrun⟩

/-- Settles O44: the result of each corner is the wrapped or the exact difference, and the three that overflow do not fit. -/
theorem resultCornersAtThirtyTwoBits : Obligations.ResultCornersAtThirtyTwoBits := by
  intro s a b c hW hwf hops
  refine ⟨fun vb va r next hvb hva hcorner => ?_, fun hmode hcorner => exec_of_overflow c hops hmode ?_⟩
  · have hresult : subtract s.cfg vb va = some r ∧ next = if r ≤ 0 then c else s.pc + 3 := by
      obtain ⟨hmode, hwraps⟩ | ⟨rfl, rfl, rfl, rfl⟩ | ⟨hzero, rfl, rfl⟩ | ⟨hone, rfl, rfl⟩ := hcorner
      · rw [subtract_of_wrap hmode, hW]
        obtain ⟨rfl, rfl, rfl, rfl⟩ | ⟨rfl, rfl, rfl, rfl⟩ | ⟨rfl, rfl, rfl, rfl⟩ := hwraps <;>
          exact ⟨by decide, rfl⟩
      · exact ⟨subtract_self .., rfl⟩
      · obtain rfl : vb = va := by omega
        exact ⟨subtract_self .., rfl⟩
      · have hfit : Fits s.cfg.cellBits (vb - va) := by rw [hW, hone]; decide
        exact ⟨hone ▸ subtract_of_fits (by omega) hfit, rfl⟩
    obtain ⟨hsub, rfl⟩ := hresult
    obtain ⟨t, hexec, hcell, hpc, -⟩ := exec_stores_and_branches c hwf hops (hvb ▸ hva ▸ hsub)
    exact ⟨t, hexec, hcell, hpc⟩
  · rw [hW]
    obtain ⟨hb, ha⟩ | ⟨hb, ha⟩ | ⟨hb, ha⟩ := hcorner <;>
      rw [hb, ha] <;> decide

/-- Settles O24: a terminal step answers the state it started from, and STEP replies with its code. -/
theorem stepInATerminalStateDoesNothing : Obligations.StepInATerminalStateDoesNothing := by
  intro s hstop
  have hstep := step_of_not_running hstop
  exact ⟨hstep, by simp only [transact, hstep]⟩

end Sys2Proof.Machine

/-! SUPPORT. LOAD and the read ports (45_host_interface.md R87 to R94): when LOAD is accepted and when it is refused, the
transactions that end in RUNNING from a terminal state, and the cells of a snapshot. -/

namespace Sys2Proof.Machine

/-! ### LOAD (R87, R88) -/

theorem loadRefused_eq_true_iff (cfg : Config) (image : List Int) (entry : Int) :
    loadRefused cfg image entry = true ↔
      cfg.capacity < image.length ∨ (∃ v ∈ image, ¬ Fits cfg.cellBits v) ∨ ¬ Fits cfg.cellBits entry := by
  rw [← Bool.not_eq_false, loadRefused_eq_false_iff, not_and_or, not_and_or, Nat.not_le]
  simp only [not_forall, exists_prop]

theorem transact_load_of_accepted {s : State} {image : List Int} {entry : Int}
    (haccept : loadRefused s.cfg image entry = false) :
    transact (.load image entry) s = .next (loadedState s.cfg image entry, .loadOk) := by
  simp only [transact, haccept, Bool.false_eq_true, if_false]

theorem transact_load_of_refused {s : State} {image : List Int} {entry : Int}
    (hrefuse : loadRefused s.cfg image entry = true) :
    transact (.load image entry) s = .next (s, .loadRefused) := by
  simp only [transact, hrefuse, if_true]

/-- The reply alone tells a refused LOAD from an accepted one, also where the state loaded is the state before. -/
theorem transact_load_refused_iff {s : State} {image : List Int} {entry : Int} :
    transact (.load image entry) s = .next (s, .loadRefused) ↔ loadRefused s.cfg image entry = true := by
  refine ⟨fun h => ?_, transact_load_of_refused⟩
  by_contra haccept
  rw [transact_load_of_accepted (Bool.eq_false_of_not_eq_true haccept)] at h
  simp at h

/-- From HALTED or FAULTED a step changes nothing and the reads never do, so only LOAD ends in RUNNING (R111). -/
theorem exists_load_of_leaves_terminal {tx : Transaction} {s t : State} {reply : Reply} (hstop : s.runState ≠ .running)
    (h : transact tx s = .next (t, reply)) (hrun : t.runState = .running) : ∃ image entry, tx = .load image entry := by
  obtain ⟨-, hstep⟩ | ⟨image, entry, htx, -⟩ | ⟨-, -, rfl⟩ := transact_cases h
  · rw [step_of_not_running hstop] at hstep
    obtain rfl := Host.Outcome.next.inj hstep
    exact absurd hrun hstop
  · exact ⟨image, entry, htx⟩
  · exact absurd hrun hstop

/-! ### SNAPSHOT (R42, R93) -/

@[simp] theorem State.snapshot_length (s : State) : s.snapshot.length = s.size := by
  simp [snapshot]

/-- The snapshot holds the cells in index order, and no cell at or beyond SIZE. -/
theorem State.snapshot_getElem? (s : State) (i : Nat) : s.snapshot[i]? = s.fetchCell i := by
  unfold snapshot fetchCell
  split
  · next hvalid => simp [hvalid]
  · next hbeyond => simp [hbeyond]

/-! ### The obligations -/

/-- Settles O38: LOAD is accepted by K, W and its arguments alone, and the loaded state takes nothing else from the old. -/
theorem loadReplacesTheWholeState : Obligations.LoadReplacesTheWholeState := by
  intro s image entry hlen himage hentry
  have haccept := (loadRefused_eq_false_iff ..).mpr ⟨hlen, himage, hentry⟩
  refine ⟨loadedState s.cfg image entry, transact_load_of_accepted haccept, rfl, loadedState_fetchCell s.cfg image entry,
    rfl, rfl, rfl, rfl, fun s' hcfg => ⟨?_, fun _ _ _ => exists_load_of_leaves_terminal⟩⟩
  rw [← hcfg] at haccept ⊢
  exact ⟨_, transact_load_of_accepted haccept, rfl⟩

/-- Settles O39: a refusal is the failure of one of the three checks, and an entry outside the image fails the fetch. -/
theorem loadRefusesOversizedOrUnfittingImages : Obligations.LoadRefusesOversizedOrUnfittingImages := by
  refine fun s image entry => ⟨transact_load_refused_iff.trans (loadRefused_eq_true_iff ..), fun t h hentry => ?_⟩
  obtain ⟨htx, -⟩ | ⟨_, _, htx, -, -, rfl⟩ | ⟨-, hreply, -⟩ := transact_cases h
  · exact absurd htx nofun
  · obtain ⟨rfl, rfl⟩ := Transaction.load.inj htx
    have hpc : (loadedState s.cfg image entry).PcOutOfRange := by
      simp only [State.PcOutOfRange, loadedState_pc, loadedState_size]
      omega
    exact step_of_pcOutOfRange rfl hpc
  · exact absurd rfl hreply

/-- Settles O16: each read replies with its field of the state, and a snapshot's elements are the cells below SIZE. -/
theorem readPortsReturnTheStateUnchanged : Obligations.ReadPortsReturnTheStateUnchanged :=
  fun s => ⟨rfl, rfl, rfl, rfl, s.snapshot, rfl, s.snapshot_length, fun i _ => s.snapshot_getElem? i⟩

end Sys2Proof.Machine

/-! SUPPORT. Halts and faults (60_exceptions.md R102 to R111): the three ends of a running step, which fault an operand
address earns, and that a fault is precise and final. -/

namespace Sys2Proof.Machine

/-! ### The ends of a step (R102, R104) -/

theorem State.TripleAtPc.not_pcOutOfRange {s : State} {a b c : Int} (h : s.TripleAtPc a b c) : ¬ s.PcOutOfRange := by
  obtain ⟨h0, hlast, -⟩ := State.fetchInstr_of_triple h
  omega

theorem StepOutcome.ends_of_running {s t : State} (h : StepOutcome s t) (hrun : s.runState = .running) :
    (t.runState = .running ∧ ¬ s.PcOutOfRange) ∨
    (t.runState = .halted ∧ s.PcOutOfRange) ∨
    (t.runState = .faulted ∧ ¬ s.PcOutOfRange ∧ t.faultCause ≠ .none) := by
  cases h with
  | stopped hstop => exact absurd hrun hstop
  | halts _ hpc => exact .inr (.inl ⟨rfl, hpc⟩)
  | faults _ htriple hraise => exact .inr (.inr ⟨rfl, htriple.not_pcOutOfRange, hraise.cause_ne_none⟩)
  | executes _ htriple => exact .inl ⟨(subleqResult_runState ..).trans hrun, htriple.not_pcOutOfRange⟩

/-- A running step that ends in FAULTED has raised a fault on the state it started from, latch apart. -/
theorem StepOutcome.eq_raiseFault_of_faulted {s t : State} (h : StepOutcome s t) (hrun : s.runState = .running)
    (hfaulted : t.runState = .faulted) :
    ∃ (cause : FaultCause) (addr : Int) (l : Latch), cause ≠ .none ∧
      t = State.raiseFault { s with latch := l } cause addr := by
  cases h with
  | stopped hstop => exact absurd hrun hstop
  | halts => exact absurd hfaulted nofun
  | faults _ _ hraise => exact ⟨_, _, _, hraise.cause_ne_none, rfl⟩
  | executes =>
    rw [subleqResult_runState] at hfaulted
    exact absurd (hrun.symm.trans hfaulted) nofun

/-! ### Operand addresses (R105, R106) -/

theorem exec_of_operandFault {s : State} {a b addr : Int} {cause : FaultCause} (c : Int)
    (hfault : operandFault s.cfg a b = some (cause, addr)) :
    exec (.subleq a b c) s = .next (s.raiseFault cause addr) := by
  simp only [exec, execSubleq_eq, hfault]

theorem addrFault_of_neg (cfg : Config) {x : Int} (hneg : x < 0) : addrFault cfg x = some .negAddr := if_pos hneg

theorem addrFault_of_capacity_le {cfg : Config} {x : Int} (h0 : 0 ≤ x) (hcap : cfg.capacity ≤ x) :
    addrFault cfg x = some .capExceeded := by
  rw [addrFault, if_neg (by omega), if_pos hcap]

/-- A failed check on A is raised, whatever B is. -/
theorem exec_of_addrFault_a {s : State} {a : Int} {cause : FaultCause} (b c : Int)
    (ha : addrFault s.cfg a = some cause) : exec (.subleq a b c) s = .next (s.raiseFault cause a) :=
  exec_of_operandFault c (by simp only [operandFault, ha])

/-- A failed check on B is raised when A passes its own. -/
theorem exec_of_addrFault_b {s : State} {a b : Int} {cause : FaultCause} (c : Int) (h0 : 0 ≤ a)
    (hcap : a < s.cfg.capacity) (hb : addrFault s.cfg b = some cause) :
    exec (.subleq a b c) s = .next (s.raiseFault cause b) := by
  have ha := (addrFault_eq_none_iff s.cfg a).mpr ⟨h0, hcap⟩
  exact exec_of_operandFault c (by simp only [operandFault, ha, hb])

/-- A W-bit address is below 2^(W-1), so at full capacity only a negative one can fail its checks. -/
theorem cause_eq_negAddr_of_full_capacity {cfg : Config} {a b c addr : Int} {cause : FaultCause}
    (hfull : cfg.capacity = half cfg.cellBits) (hwf : (Instr.subleq a b c).wf cfg.cellBits = true)
    (hfault : operandFault cfg a b = some (cause, addr)) : cause = .negAddr := by
  simp only [Instr.wf, Bool.and_eq_true, decide_eq_true_eq] at hwf
  obtain ⟨⟨⟨-, ha⟩, ⟨-, hb⟩⟩, -⟩ := hwf
  obtain ⟨haddr, ⟨hcause, -⟩ | ⟨-, -, hcap⟩⟩ := operandFault_eq_some hfault
  · exact hcause
  · omega

/-! ### The obligations -/

/-- Settles O23: a step always answers, and from RUNNING its outcome is one of the other three. -/
theorem everyStepExecutesHaltsOrFaults : Obligations.EveryStepExecutesHaltsOrFaults := by
  intro s
  obtain ⟨t, h⟩ := step_next s
  exact ⟨t, h, (stepOutcome_of_step h).ends_of_running⟩

/-- Settles O31: the check on the address earns CAP_EXCEEDED, and at full capacity no W-bit address earns it. -/
theorem operandAddressAtOrAboveCapacityFaults : Obligations.OperandAddressAtOrAboveCapacityFaults := by
  refine ⟨fun s a b c => ⟨fun h0 hcap => exec_of_addrFault_a b c (addrFault_of_capacity_le h0 hcap),
    fun ha0 hacap h0 hcap => exec_of_addrFault_b c ha0 hacap (addrFault_of_capacity_le h0 hcap)⟩, ?_⟩
  intro s t i hfull hwf hold h
  obtain ⟨a, b, c, rfl, ⟨cause, addr, hfault, rfl⟩ | ⟨-, -, rfl⟩ | ⟨-, r, -, rfl⟩⟩ := exec_cases h
  · obtain rfl := cause_eq_negAddr_of_full_capacity hfull hwf hfault
    exact nofun
  · exact nofun
  · rwa [subleqResult_faultCause]

/-- Settles O32: with both addresses valid, SUBLEQ either raises OVERFLOW at b or executes and stays RUNNING. -/
theorem overflowFaultOnlyInFaultMode : Obligations.OverflowFaultOnlyInFaultMode := by
  intro s t a b c hrun hops h
  by_cases hover : s.cfg.overflow = .fault ∧ ¬ Fits s.cfg.cellBits (s.operand b - s.operand a)
  · rw [exec_of_overflow c hops hover.1 hover.2] at h
    obtain rfl := Host.Outcome.next.inj h
    exact ⟨iff_of_true rfl hover, fun _ => ⟨rfl, rfl⟩⟩
  · obtain ⟨r, hsub⟩ := Option.ne_none_iff_exists'.mp (mt (subtract_eq_none_iff ..).mp hover)
    rw [exec_of_subtract c hops hsub] at h
    obtain rfl := Host.Outcome.next.inj h
    have hstays : (subleqResult s a b c r).runState ≠ .faulted := by simp [hrun]
    exact ⟨iff_of_false hstays hover, fun hfaulted => absurd hfaulted hstays⟩

/-- Settles O34: the fault is raised on the state before the step, and FAULTED is a terminal state. -/
theorem faultsArePreciseAndTerminal : Obligations.FaultsArePreciseAndTerminal := by
  intro s t hrun h hfaulted
  refine ⟨(stepOutcome_of_step h).eq_raiseFault_of_faulted hrun hfaulted, step_of_not_running ?_⟩
  rw [hfaulted]
  exact nofun

/-- Settles O37: a step changes no terminal state, and of the other transactions only an accepted LOAD writes the state. -/
theorem onlyLoadLeavesHaltedOrFaulted : Obligations.OnlyLoadLeavesHaltedOrFaulted := by
  intro tx s t reply hstop h
  obtain ⟨-, hstep⟩ | ⟨image, entry, rfl, -, rfl, rfl⟩ | ⟨-, -, rfl⟩ := transact_cases h
  · rw [step_of_not_running hstop] at hstep
    exact .inr (Host.Outcome.next.inj hstep).symm
  · exact .inl ⟨image, entry, rfl, rfl, rfl⟩
  · exact .inr rfl

/-- Settles O30: the check on the address earns NEG_ADDR. -/
theorem negativeOperandAddressFaults : Obligations.NegativeOperandAddressFaults :=
  fun s _ b c => ⟨fun hneg => exec_of_addrFault_a b c (addrFault_of_neg s.cfg hneg),
    fun h0 hcap hneg => exec_of_addrFault_b c h0 hcap (addrFault_of_neg s.cfg hneg)⟩

end Sys2Proof.Machine

/-! SUPPORT. Reset and self-modification (70_reset_and_hazards.md R119, R125, R126): the power-on state, and what the fetch
after an executing step sees. -/

namespace Sys2Proof.Machine

/-! ### The fetch in terms of operands (R69, R70) -/

theorem State.operand_eq_read {s : State} {x : Int} (hvalid : x.toNat < s.size) :
    s.operand x = Memory.read s.mem x.toNat := by
  rw [operand, fetchCell, if_pos hvalid, Option.getD_some]

/-- In the fetchable range the fetch sees the cells that operand accesses to PC, PC + 1 and PC + 2 see. -/
theorem State.fetchInstr_eq_operands {s : State} (h0 : 0 ≤ s.pc) (hlast : s.pc + 2 < s.size) :
    s.fetchInstr = some (.subleq (s.operand s.pc) (s.operand (s.pc + 1)) (s.operand (s.pc + 2))) := by
  have h1 : (s.pc + 1).toNat = s.pc.toNat + 1 := by omega
  have h2 : (s.pc + 2).toNat = s.pc.toNat + 2 := by omega
  rw [fetchInstr_of_valid h0 hlast, operand_eq_read (by omega), operand_eq_read (by omega), operand_eq_read (by omega),
    h1, h2]

theorem State.fetchInstr_eq_some_iff {s : State} {a b c : Int} :
    s.fetchInstr = some (.subleq a b c) ↔
      (0 ≤ s.pc ∧ s.pc + 2 < s.size) ∧ a = s.operand s.pc ∧ b = s.operand (s.pc + 1) ∧ c = s.operand (s.pc + 2) := by
  constructor
  · intro h
    obtain ⟨h0, hlast⟩ := s.fetchInstr_isSome_iff.mp (by rw [h]; rfl)
    rw [fetchInstr_eq_operands h0 hlast] at h
    cases h
    exact ⟨⟨h0, hlast⟩, rfl, rfl, rfl⟩
  · rintro ⟨⟨h0, hlast⟩, rfl, rfl, rfl⟩
    exact fetchInstr_eq_operands h0 hlast

/-! ### What an executed step leaves (R75, R76) -/

/-- Whatever result the subtraction has, it is the wrapped difference: in FAULT mode only an exact one is a result. -/
theorem eq_wrapW_of_subtract {cfg : Config} {vb va r : Int} (hW : 1 ≤ cfg.cellBits) (hsub : subtract cfg vb va = some r) :
    r = wrapW cfg.cellBits (vb - va) := by
  have hno : NoOverflow cfg vb va := by
    cases hmode : cfg.overflow with
    | wrap => exact .inl hmode
    | fault =>
      by_contra hover
      have hnone := (subtract_eq_none_iff cfg vb va).mpr ⟨hmode, fun hfit => hover (.inr hfit)⟩
      exact absurd (hnone.symm.trans hsub) nofun
  exact Option.some.inj (hsub.symm.trans (subtract_of_noOverflow hW hno))

/-- At addresses that are not negative, the operand at b is the result and every other one is the old one. -/
theorem subleqResult_operand_of_nonneg {s : State} (hwf : Memory.wf s.mem) (a c r : Int) {b y : Int} (hb : 0 ≤ b)
    (hy : 0 ≤ y) : (subleqResult s a b c r).operand y = if y = b then r else s.operand y := by
  have hsame : y.toNat = b.toNat ↔ y = b := by omega
  rw [subleqResult_operand hwf]
  simp only [hsame]

/-- A step over the triple a b c that ends in RUNNING stores the wrapped difference in cell b and branches on it; every
other cell keeps its operand value. -/
theorem executed_effect {s t : State} {a b c r : Int} (hs : s.Inv) (hrun : s.runState = .running)
    (htriple : s.TripleAtPc a b c) (hr : r = wrapW s.cfg.cellBits (s.operand b - s.operand a)) (h : step s = .next t)
    (htrun : t.runState = .running) :
    t.fetchCell b.toNat = some r ∧ t.pc = (if r ≤ 0 then c else s.pc + 3) ∧
      ∀ y, 0 ≤ y → t.operand y = if y = b then r else s.operand y := by
  have hwf : Memory.wf { s with latch := ⟨a, b, c⟩ }.mem := hs.memory
  have hW : 1 ≤ s.cfg.cellBits := Nat.le_of_succ_le hs.legal.1
  rw [step_of_triple hrun htriple] at h
  obtain ⟨_, _, _, ⟨rfl, rfl, rfl⟩, ⟨_, _, -, rfl⟩ | ⟨-, -, rfl⟩ | ⟨⟨-, hb, -⟩, r', hsub, rfl⟩⟩ := exec_cases h
  · exact absurd htrun nofun
  · exact absurd htrun nofun
  · obtain rfl : r' = r := (eq_wrapW_of_subtract hW hsub).trans hr.symm
    exact ⟨by rw [subleqResult_fetchCell hwf, if_pos rfl], nextPc_eq ..,
      fun _ hy => subleqResult_operand_of_nonneg hwf a c _ hb hy⟩

/-! ### The obligations -/

/-- Settles O41: memory has not shrunk, so at the same PC the fetch succeeds, and it sees the old triple but for cell b. -/
theorem ownCellsWrittenTakeEffectOnlyAtALaterFetch : Obligations.OwnCellsWrittenTakeEffectOnlyAtALaterFetch := by
  intro s t a b c r hs hrun htriple _ hr h htrun
  obtain ⟨hcell, hpc, hsees⟩ := executed_effect hs hrun htriple hr h htrun
  refine ⟨hcell, hpc, fun hsame => ?_⟩
  obtain ⟨-, -, hfetch⟩ := State.fetchInstr_of_triple htriple
  obtain ⟨⟨h0, hlast⟩, ha, hb, hc⟩ := State.fetchInstr_eq_some_iff.mp hfetch
  have hgrows := (stepOutcome_of_step h).size_le
  rw [State.fetchInstr_eq_some_iff, hsame, hsees _ h0, hsees _ (by omega), hsees _ (by omega), ← ha, ← hb, ← hc]
  exact ⟨⟨h0, by omega⟩, by simp only [eq_comm], by simp only [eq_comm], by simp only [eq_comm]⟩

/-- Settles O42: the fetch succeeds, so its addresses are not negative, and each field is the operand the step left there. -/
theorem nextFetchSeesTheWriteOfThisStep : Obligations.NextFetchSeesTheWriteOfThisStep := by
  intro s t a b c r a' b' c' hs hrun htriple hr h htrun hfetch
  obtain ⟨-, -, hsees⟩ := executed_effect hs hrun htriple hr h htrun
  obtain ⟨⟨h0, -⟩, rfl, rfl, rfl⟩ := State.fetchInstr_eq_some_iff.mp hfetch
  exact ⟨hsees _ h0, hsees _ (by omega), hsees _ (by omega)⟩

/-- Settles O1: LOAD([], 0) is accepted by every configuration, and with SIZE = 0 no triple can be fetched. -/
theorem powerOnStateIsEmptyAndItsStepHalts : Obligations.PowerOnStateIsEmptyAndItsStepHalts := by
  have haccept : loadRefused State.reset.cfg [] 0 = false :=
    (loadRefused_eq_false_iff ..).mpr ⟨Nat.zero_le _, nofun, fits_zero _⟩
  have hpc : State.reset.PcOutOfRange := .inr (by decide)
  exact ⟨rfl, rfl, rfl, rfl, rfl, rfl, ⟨_, transact_load_of_accepted haccept, rfl⟩, step_of_pcOutOfRange rfl hpc⟩

end Sys2Proof.Machine

/-! SUPPORT. The invariant (10_state.md sections 2 to 5): each field of `State.Inv` through one step, an accepted LOAD
meets it from its checks alone, and so every transaction and every reachable state. -/

namespace Sys2Proof.Machine

/-! ### The fields of the invariant through a step -/

theorem State.CellsInRange.fits_triple {s : State} (h : s.CellsInRange) {a b c : Int} (htriple : s.TripleAtPc a b c) :
    Fits s.cfg.cellBits a ∧ Fits s.cfg.cellBits b ∧ Fits s.cfg.cellBits c := by
  obtain ⟨-, ha, hb, hc⟩ := htriple
  exact ⟨h.fits_fetchCell ha, h.fits_fetchCell hb, h.fits_fetchCell hc⟩

/-- A fault records one of the two operands. -/
theorem State.Raises.addr_eq {s : State} {a b addr : Int} {cause : FaultCause} (h : s.Raises a b cause addr) :
    addr = a ∨ addr = b := by
  obtain hfault | ⟨-, -, -, haddr⟩ := h
  · exact (operandFault_eq_some hfault).1
  · exact .inr haddr

theorem StepOutcome.mem_wf {s t : State} (h : StepOutcome s t) (hs : Memory.wf s.mem) : Memory.wf t.mem := by
  cases h with
  | stopped => exact hs
  | halts => exact hs
  | faults => exact hs
  | executes =>
    refine subleqResult_mem_wf ?_ ..
    exact hs

/-- An entry listed after an executed SUBLEQ is the result at b, which fits, or one listed before. -/
theorem cellsInRange_subleqResult {s : State} {a b r : Int} (c : Int) (hcells : s.CellsInRange)
    (hr : Fits s.cfg.cellBits r) : (subleqResult s a b c r).CellsInRange := by
  intro p hp
  rw [subleqResult_cfg, subleqResult_size]
  obtain rfl | hold := mem_subleqResult hp
  · exact ⟨by simp only; omega, hr⟩
  · obtain ⟨hvalid, hfits⟩ := hcells p hold
    exact ⟨by omega, hfits⟩

theorem StepOutcome.cellsInRange {s t : State} (h : StepOutcome s t) (hW : 1 ≤ s.cfg.cellBits) (hs : s.CellsInRange) :
    t.CellsInRange := by
  cases h with
  | stopped => exact hs
  | halts => exact hs
  | faults => exact hs
  | executes _ _ _ hsub => exact cellsInRange_subleqResult (s := { s with latch := _ }) _ hs (fits_of_subtract hW hsub)

theorem StepOutcome.faultAddr_fits {s t : State} (h : StepOutcome s t) (hcells : s.CellsInRange)
    (hs : Fits s.cfg.cellBits s.faultAddr) : Fits s.cfg.cellBits t.faultAddr := by
  cases h with
  | stopped => exact hs
  | halts => exact hs
  | faults _ htriple hraise =>
    obtain ⟨ha, hb, -⟩ := hcells.fits_triple htriple
    obtain rfl | rfl := hraise.addr_eq
    · exact ha
    · exact hb
  | executes => rwa [subleqResult_faultAddr]

theorem StepOutcome.latch_fits {s t : State} (h : StepOutcome s t) (hs : s.Inv) :
    Fits s.cfg.cellBits t.latch.ia ∧ Fits s.cfg.cellBits t.latch.ib ∧ Fits s.cfg.cellBits t.latch.ic := by
  cases h with
  | stopped => exact hs.latchFits
  | halts => exact hs.latchFits
  | faults _ htriple => exact hs.cells.fits_triple htriple
  | executes _ htriple =>
    rw [subleqResult_latch]
    exact hs.cells.fits_triple htriple

theorem StepOutcome.inv {s t : State} (h : StepOutcome s t) (hs : s.Inv) : t.Inv where
  legal := by rw [h.cfg_eq]; exact hs.legal
  memory := h.mem_wf hs.memory
  cells := h.cellsInRange (Nat.le_of_succ_le hs.legal.1) hs.cells
  sizeBounded := by rw [h.cfg_eq]; exact h.size_le_capacity hs.sizeBounded
  pcRange := h.pcInRange hs
  faultRecord := h.faultRecordOk hs.faultRecord
  faultAddrFits := by rw [h.cfg_eq]; exact h.faultAddr_fits hs.cells hs.faultAddrFits
  latchFits := by rw [h.cfg_eq]; exact h.latch_fits hs

/-! ### LOAD and power-on -/

/-- The three checks of R88 are what the invariant asks of an image and an entry. -/
theorem inv_loadedState {cfg : Config} {image : List Int} {entry : Int} (hlegal : cfg.Legal)
    (haccept : loadRefused cfg image entry = false) : (loadedState cfg image entry).Inv := by
  obtain ⟨hlen, himage, hlo, hhi⟩ := (loadRefused_eq_false_iff ..).mp haccept
  have hzero := fits_zero cfg.cellBits
  refine ⟨hlegal, Memory.wf_ofCells 0 image, fun p hp => ?_, hlen, ⟨hlo, hhi.le⟩,
    State.faultRecordOk_of_clear nofun rfl rfl, hzero, hzero, hzero, hzero⟩
  obtain ⟨-, hvalid, hmem⟩ := Memory.mem_ofCells hp
  exact ⟨by simpa using hvalid, himage _ hmem⟩

theorem loadRefused_empty (cfg : Config) : loadRefused cfg [] 0 = false :=
  (loadRefused_eq_false_iff ..).mpr ⟨Nat.zero_le _, nofun, fits_zero _⟩

theorem inv_powerOn {cfg : Config} (hlegal : cfg.Legal) : (loadedState cfg [] 0).Inv :=
  inv_loadedState hlegal (loadRefused_empty cfg)

/-! ### Transactions -/

theorem transact_keeps_inv {tx : Transaction} {s t : State} {reply : Reply} (hs : s.Inv)
    (h : transact tx s = .next (t, reply)) : t.Inv := by
  obtain ⟨-, hstep⟩ | ⟨_, _, -, haccept, -, rfl⟩ | ⟨-, -, rfl⟩ := transact_cases h
  · exact (stepOutcome_of_step hstep).inv hs
  · exact inv_loadedState hs.legal haccept
  · exact hs

theorem transact_cfg {tx : Transaction} {s t : State} {reply : Reply} (h : transact tx s = .next (t, reply)) :
    t.cfg = s.cfg := by
  obtain ⟨-, hstep⟩ | ⟨_, _, -, -, -, rfl⟩ | ⟨-, -, rfl⟩ := transact_cases h
  · exact (stepOutcome_of_step hstep).cfg_eq
  · rfl
  · rfl

/-! ### The obligations -/

/-- Settles O3: each field of the invariant holds after each of the four outcomes of a step. -/
theorem everyStepKeepsTheInvariant : Obligations.EveryStepKeepsTheInvariant :=
  fun _ _ hs h => (stepOutcome_of_step h).inv hs

/-- Settles O54: a transaction is a step, an accepted LOAD or no change, and power-on is the accepted LOAD([], 0). -/
theorem everyTransactionKeepsTheInvariant : Obligations.EveryTransactionKeepsTheInvariant :=
  ⟨fun _ _ _ _ => transact_keeps_inv, fun _ => inv_powerOn⟩

/-- Settles O4, by induction on the transactions that reach the state. -/
theorem reachableStatesSatisfyTheInvariant : Obligations.ReachableStatesSatisfyTheInvariant := by
  intro cfg s hlegal hreach
  induction hreach with
  | powerOn => exact ⟨inv_powerOn hlegal, rfl⟩
  | transact _ _ _ _ _ htx ih =>
    obtain ⟨hinv, hcfg⟩ := ih
    exact ⟨transact_keeps_inv hinv htx, (transact_cfg htx).trans hcfg⟩

/-- Settles O5: a step and a LOAD leave the configuration. -/
theorem noTransactionChangesTheParameters : Obligations.NoTransactionChangesTheParameters :=
  fun _ _ _ _ => transact_cfg

/-- Settles O2: the reset state is the power-on state of the reference configuration. -/
theorem resetStateSatisfiesTheInvariant : Obligations.ResetStateSatisfiesTheInvariant :=
  inv_powerOn (cfg := Config.reference) (by decide)

end Sys2Proof.Machine

/-! SUPPORT. The wrapped value and the words of instructions (00_scope.md R12, 30_encoding.md R53, R54): uniqueness, the
round trip from the instruction, and the placed word. -/

namespace Sys2Proof

theorem decode_encode (i : Instr) : decode (encode i) = .ok (i, []) := by
  cases i with
  | subleq a b c => exact (Laws.ThreeCells.subleq a b c).2 []

theorem encode_length (i : Instr) : (encode i).length = instrCells := by
  cases i with
  | subleq a b c => exact (Laws.ThreeCells.subleq a b c).1

theorem encodeWord_lt (W : Nat) (i : Instr) : encodeWord W i < 2 ^ (instrCells * W) := by
  rw [← encode_length i]
  exact wordOfCells_lt W (encode i)

theorem decodeWord_encodeWord {W : Nat} (hW : 1 ≤ W) {i : Instr} (hwf : i.wf W = true) :
    decodeWord W (encodeWord W i) = .ok (i, []) := by
  have hcells : cellsOfWord W instrCells (encodeWord W i) = encode i := by
    rw [← encode_length i]
    exact cellsOfWord_wordOfCells hW ((Instr.wf_iff_forall_mem_encode W i).mp hwf)
  rw [decodeWord, hcells, decode_encode]

/-- Settles O6: a value that fits is its own wrapped value, and wrapping sees only the class modulo 2^W. -/
theorem wrapIsTheUniqueFittingCongruentValue : Obligations.WrapIsTheUniqueFittingCongruentValue := by
  intro W x y hW
  have hW1 : 1 ≤ W := by omega
  constructor
  · rintro rfl
    exact ⟨fits_wrapW hW1 x, by exact_mod_cast wrapW_eq_add_mul W x⟩
  · rintro ⟨hfits, k, hk⟩
    calc y = wrapW W y := (wrapW_of_fits hW1 hfits).symm
      _ = wrapW W (x + k * (2 ^ W : Nat)) := by rw [hk]; push_cast; rfl
      _ = wrapW W x := wrapW_add_mul W x k

/-- Settles O8: the cells of the encoding fit, so the word gives them back, and three cells decode to their instruction. -/
theorem decodeOfEncodeIsTheInstruction : Obligations.DecodeOfEncodeIsTheInstruction :=
  fun W i hW hwf => ⟨encodeWord_lt W i, decodeWord_encodeWord (by omega) hwf⟩

/-- Settles O7, by evaluating the decoder. -/
theorem writtenOutWordsDecodeToTheirTriples : Obligations.WrittenOutWordsDecodeToTheirTriples :=
  ⟨by decide, by decide, by decide⟩

end Sys2Proof

namespace Sys2Proof.Machine

/-! ### The placed word (assumptions 8 and 9) -/

/-- The power-on state of the reference configuration with three cells stored from address 0 on. -/
def placedTriple (a b c : Int) : State := ((State.reset.memWrite 0 a).memWrite 1 b).memWrite 2 c

theorem placedTriple_tripleAtPc (a b c : Int) : (placedTriple a b c).TripleAtPc a b c := by
  have hwf : Memory.wf State.reset.mem := by decide
  have hwf1 := State.memWrite_mem_wf hwf 0 a
  have hwf2 := State.memWrite_mem_wf hwf1 1 b
  have hpc : (placedTriple a b c).pc = 0 := by simp [placedTriple, State.reset]
  rw [State.TripleAtPc, hpc, placedTriple]
  simp [State.fetchCell_memWrite hwf2, State.fetchCell_memWrite hwf1, State.fetchCell_memWrite hwf,
    State.fetchCell_touch, State.touch_size]

/-- At reset the word is placed at 0, cell by cell, and the other fields are as they were. -/
theorem reset_withFetchWord {w : Nat} {a b c : Int} (hw : w < 2 ^ 96)
    (hcells : cellsOfWord 32 instrCells w = [a, b, c]) :
    State.reset.withFetchWord 96 w = placedTriple a b c := by
  have hbase : State.reset.fetchBase = 0 := by decide
  have hbits : State.reset.cfg.cellBits = 32 := rfl
  simp only [State.withFetchWord, hbase, hbits, Nat.mod_eq_of_lt hw, hcells]
  rfl

/-- Settles O10: the word's three cells are the triple at PC = 0, and a running step over a triple executes it. -/
theorem placedWordIsTheNextInstructionRun : Obligations.PlacedWordIsTheNextInstructionRun := by
  intro w hw
  obtain ⟨a, b, c, hcells⟩ := List.length_eq_three.mp (cellsOfWord_length 32 instrCells w)
  have hbits : Config.reference.cellBits = 32 := rfl
  rw [reset_withFetchWord hw hcells]
  refine ⟨.subleq a b c, ?_, ?_, ?_⟩
  · rw [decodeTableWord, decodeWord, hbits, Nat.mod_eq_of_lt hw, hcells]; rfl
  · simp [placedTriple, State.reset]
  · exact step_of_triple (by simp [placedTriple, State.reset]) (placedTriple_tripleAtPc a b c)

end Sys2Proof.Machine

/-! SUPPORT. Reads in sequence and the sparse array (20_memory.md sections 3 to 5): two accesses grow memory in one way
whatever their order, and the snapshot determines the memory. -/

namespace Sys2Proof.Machine

/-- Two accesses grow memory as one access to the larger address does. -/
theorem State.touch_touch_eq_max (s : State) (a b : Nat) : (s.touch a).touch b = s.touch (max a b) := by
  by_cases hba : b ≤ a
  · have hvalid : b < (s.touch a).size := hba.trans_lt (s.lt_touch_size a)
    rw [touch_of_lt hvalid, max_eq_left hba]
  · have hab : a < b := Nat.not_le.mp hba
    rw [max_eq_right hab.le]
    by_cases hvalid : a < s.size
    · rw [touch_of_lt hvalid]
    · have hbeyond : s.size ≤ a := Nat.not_lt.mp hvalid
      have hnew : (s.grow a).size ≤ b := hab
      have hcells : Memory.below (a + 1) (Memory.below s.size s.mem) = Memory.below s.size s.mem :=
        Memory.below_below (by omega) s.mem
      rw [touch_of_le hbeyond, touch_of_le hnew, touch_of_le (hbeyond.trans hab.le)]
      simp only [grow, hcells]

theorem State.touch_comm (s : State) (a b : Nat) : (s.touch a).touch b = (s.touch b).touch a := by
  rw [touch_touch_eq_max, touch_touch_eq_max, max_comm]

/-- With every listed cell below SIZE, the array beyond SIZE reads as 0 and so says no more than the cells do. -/
theorem State.CellsInRange.read_eq_getD_fetchCell {s : State} (h : s.CellsInRange) (i : Nat) :
    Memory.read s.mem i = (s.fetchCell i).getD Memory.unlisted := by
  unfold fetchCell
  split
  · rfl
  · next hbeyond =>
    refine Memory.read_eq_unlisted fun p hp hpi => hbeyond ?_
    rw [← hpi]
    exact (h p hp).1

theorem mem_eq_of_snapshot_eq {s t : State} (hs : s.Inv) (ht : t.Inv) (h : s.snapshot = t.snapshot) : s.mem = t.mem := by
  refine Memory.eq_of_read_eq hs.memory ht.memory fun i => ?_
  rw [hs.cells.read_eq_getD_fetchCell, ht.cells.read_eq_getD_fetchCell, ← s.snapshot_getElem?, ← t.snapshot_getElem?, h]

theorem size_eq_of_snapshot_eq {s t : State} (h : s.snapshot = t.snapshot) : s.size = t.size := by
  rw [← s.snapshot_length, h, t.snapshot_length]

/-! ### The obligations -/

/-- Settles O17: the second read touches a cell that the first has already touched. -/
theorem repeatedMemReadIsIdempotent : Obligations.RepeatedMemReadIsIdempotent := by
  intro s x
  simp only [State.memRead, State.touch_touch]

/-- Settles O18: a read's value does not depend on the growth of the other, and their growth commutes. -/
theorem orderOfOperandReadsIsUnobservable : Obligations.OrderOfOperandReadsIsUnobservable := by
  intro s a b
  refine ⟨?_, ?_, s.touch_comm b.toNat a.toNat⟩
  · simp only [readOperands, State.memRead_toNat_fst, State.memRead_snd, State.operand_touch]
  · simp only [readOperands, State.memRead_toNat_fst, State.memRead_snd, State.operand_touch]

/-- Settles O19: equal snapshots are equal cells, and canonical memories that read alike are equal. -/
theorem equalSnapshotsAreEqualMemories : Obligations.EqualSnapshotsAreEqualMemories :=
  fun _ _ hs ht h => ⟨mem_eq_of_snapshot_eq hs ht h, size_eq_of_snapshot_eq h⟩

end Sys2Proof.Machine

/-! SUPPORT. What an executed SUBLEQ leaves as it was, and where it jumps (40_subleq.md R70 to R81, 70_reset_and_hazards.md
R127). -/

namespace Sys2Proof.Machine

/-- Without OVERFLOW the subtraction has a result, at every width. -/
theorem exists_subtract_of_noOverflow {cfg : Config} {vb va : Int} (hno : NoOverflow cfg vb va) :
    ∃ r, subtract cfg vb va = some r := by
  rw [← Option.ne_none_iff_exists', ne_eq, subtract_eq_none_iff]
  rintro ⟨hmode, hfit⟩
  obtain hwrap | hfits := hno
  · rw [hmode] at hwrap
    exact absurd hwrap nofun
  · exact hfit hfits

theorem subleqResult_registers (s : State) (a b c r : Int) :
    { subleqResult s a b c r with mem := s.mem, size := s.size, pc := s.pc } = s := by
  simp only [subleqResult_cfg, subleqResult_runState, subleqResult_faultCause, subleqResult_faultAddr,
    subleqResult_latch]

/-- Every cell of the old range but b is kept. -/
theorem subleqResult_fetchCell_old {s : State} (hwf : Memory.wf s.mem) (a c r : Int) {b : Int} {i : Nat}
    (hne : i ≠ b.toNat) (hvalid : i < s.size) : (subleqResult s a b c r).fetchCell i = s.fetchCell i := by
  rw [subleqResult_fetchCell hwf, if_neg hne, if_pos hvalid]

theorem subleqResult_fetchCell_same {s : State} (hwf : Memory.wf s.mem) (a b c r : Int) :
    (subleqResult s a b c r).fetchCell b.toNat = some r := by
  rw [subleqResult_fetchCell hwf, if_pos rfl]

/-- Every operand but b is kept, in the old range and beyond it. -/
theorem subleqResult_operand_ne {s : State} (hwf : Memory.wf s.mem) (a c r : Int) {b : Int} {i : Nat}
    (hne : i ≠ b.toNat) : (subleqResult s a b c r).operand i = s.operand i := by
  rw [subleqResult_operand hwf, Int.toNat_natCast, if_neg hne]

/-- SUBLEQ leaves the latch as it found it (R27). -/
theorem exec_latch {i : Instr} {s t : State} (h : exec i s = .next t) : t.latch = s.latch := by
  obtain ⟨a, b, c, -, ⟨_, _, -, rfl⟩ | ⟨-, -, rfl⟩ | ⟨-, r, -, rfl⟩⟩ := exec_cases h
  · rfl
  · rfl
  · exact subleqResult_latch ..

/-! ### The obligations -/

/-- Settles O28: SUBLEQ without OVERFLOW leaves `subleqResult`, which writes cell b alone. -/
theorem subleqChangesOnlyItsDestinationSizeAndPc : Obligations.SubleqChangesOnlyItsDestinationSizeAndPc := by
  intro s t a b c hwf hops hno h
  obtain ⟨r, hsub⟩ := exists_subtract_of_noOverflow hno
  obtain rfl := Host.Outcome.next.inj ((exec_of_subtract c hops hsub).symm.trans h)
  refine ⟨fun x hne => ?_, fun x hne hvalid => subleqResult_fetchCell_old hwf a c r hne hvalid,
    subleqResult_registers s a b c r⟩
  rw [State.memRead_fst, State.memRead_fst, subleqResult_operand_ne hwf a c r hne]

/-- Settles O43: the branch is taken, so PC is c, and a step at a PC out of range is the halt. -/
theorem takenBranchOutOfRangeHaltsAtTheNextStep : Obligations.TakenBranchOutOfRangeHaltsAtTheNextStep := by
  rintro s t a b c r ⟨hW, -⟩ hwf hrun hops hno rfl htaken hc h
  obtain ⟨u, hu, hcell, hpc, -, hstays⟩ :=
    exec_stores_and_branches c hwf hops (subtract_of_noOverflow (by omega) hno)
  obtain rfl := Host.Outcome.next.inj (hu.symm.trans h)
  rw [if_pos htaken] at hpc
  have hrun' : u.runState = .running := hstays.trans hrun
  exact ⟨hrun', step_of_pcOutOfRange hrun' (by rwa [State.PcOutOfRange, hpc]), hcell⟩

/-- Settles O45: a cell less itself is 0, which takes the branch to 0, and cell 0 lies below SIZE where a triple does. -/
theorem tripleOfZerosClearsCellZeroAndJumpsThere : Obligations.TripleOfZerosClearsCellZeroAndJumpsThere := by
  intro s hwf hcap hrun htriple
  obtain ⟨h0, hlast, -⟩ := State.fetchInstr_of_triple htriple
  have hcell : (0 : Int) ≤ 0 ∧ (0 : Int) < s.cfg.capacity := ⟨le_refl _, by exact_mod_cast hcap⟩
  have hwf' : Memory.wf { s with latch := ⟨0, 0, 0⟩ }.mem := hwf
  have hexec := exec_of_subtract (s := { s with latch := ⟨0, 0, 0⟩ }) (c := 0) ⟨hcell, hcell⟩ (subtract_self ..)
  have hsize : (subleqResult { s with latch := ⟨0, 0, 0⟩ } 0 0 0 0).size = s.size := by
    rw [subleqResult_size]; simp only; omega
  refine ⟨_, (step_of_triple hrun htriple).trans hexec, (subleqResult_runState ..).trans hrun, rfl,
    subleqResult_fetchCell_same hwf' .., hsize, fun i hi => ?_⟩
  by_cases hvalid : i < s.size
  · exact subleqResult_fetchCell_old hwf' _ _ _ hi hvalid
  · rw [State.fetchCell, State.fetchCell, hsize, if_neg hvalid, if_neg hvalid]

/-- Settles O26: the fetch latches the triple, and SUBLEQ leaves the latch as it found it. -/
theorem stepExecutesTheDecodedTripleAtPc : Obligations.StepExecutesTheDecodedTripleAtPc := by
  intro s a b c i hrun htriple hdecode
  obtain rfl : Instr.subleq a b c = i := congrArg Prod.fst (Except.ok.inj hdecode)
  have hstep := step_of_triple hrun htriple
  exact ⟨hstep, fun t h => exec_latch (hstep.symm.trans h)⟩

end Sys2Proof.Machine

/-! SUPPORT. Whole runs (10_state.md R27, 40_subleq.md R85): the latch and the representation of memory are invisible, and
the runs that cannot fault. -/

namespace Sys2Proof.Machine

/-! ### The latch (R27) -/

theorem State.exists_tripleAtPc_of_inRange {s : State} (h : ¬ s.PcOutOfRange) : ∃ a b c, s.TripleAtPc a b c :=
  State.exists_tripleAtPc (by omega) (by omega)

/-- A step that fetches overwrites the latch before anything could read it. -/
theorem step_withLatch_of_fetches {s : State} (l : Latch) (hrun : s.runState = .running) (hpc : ¬ s.PcOutOfRange) :
    step { s with latch := l } = step s := by
  obtain ⟨a, b, c, htriple⟩ := State.exists_tripleAtPc_of_inRange hpc
  rw [step_of_triple hrun htriple]
  exact step_of_triple (s := { s with latch := l }) hrun htriple

/-- A step that does not fetch keeps the latch. -/
theorem step_withLatch_of_not_fetches {s t : State} (l : Latch) (hidle : s.runState ≠ .running ∨ s.PcOutOfRange)
    (h : step s = .next t) : step { s with latch := l } = .next { t with latch := l } := by
  by_cases hrun : s.runState = .running
  · have hpc : s.PcOutOfRange := hidle.resolve_left (not_not_intro hrun)
    obtain rfl := Host.Outcome.next.inj ((step_of_pcOutOfRange hrun hpc).symm.trans h)
    exact step_of_pcOutOfRange (s := { s with latch := l }) hrun hpc
  · obtain rfl := Host.Outcome.next.inj ((step_of_not_running hrun).symm.trans h)
    exact step_of_not_running (s := { s with latch := l }) hrun

/-- From states that differ in the latch alone, a step leaves states that differ in the latch at most. -/
theorem step_withLatch {s t t' : State} {l : Latch} (h : step s = .next t) (h' : step { s with latch := l } = .next t') :
    { t with latch := t'.latch } = t' := by
  by_cases hidle : s.runState ≠ .running ∨ s.PcOutOfRange
  · obtain rfl := Host.Outcome.next.inj (h'.symm.trans (step_withLatch_of_not_fetches l hidle h))
    rfl
  · rw [not_or, not_not] at hidle
    obtain ⟨hrun, hpc⟩ := hidle
    obtain rfl := Host.Outcome.next.inj ((h'.symm.trans (step_withLatch_of_fetches l hrun hpc)).trans h)
    rfl

/-! ### Runs that cannot fault (R85) -/

/-- At full capacity and under WRAP, a triple whose operand addresses are not negative raises nothing. -/
theorem State.Inv.not_raises {s : State} (hs : s.Inv) (hfull : s.cfg.capacity = half s.cfg.cellBits)
    (hwrap : s.cfg.overflow = .wrap) {a b c : Int} (htriple : s.TripleAtPc a b c) (ha : 0 ≤ a) (hb : 0 ≤ b)
    (cause : FaultCause) (addr : Int) : ¬ s.Raises a b cause addr := by
  obtain ⟨⟨-, hahi⟩, ⟨-, hbhi⟩, -⟩ := hs.cells.fits_triple htriple
  have hops : OperandsInMemory s.cfg a b := by rw [OperandsInMemory, hfull]; exact ⟨⟨ha, hahi⟩, hb, hbhi⟩
  rintro (hfault | ⟨-, hsub, -⟩)
  · rw [(operandFault_eq_none_iff ..).mpr hops] at hfault
    exact absurd hfault nofun
  · rw [subtract_of_wrap hwrap] at hsub
    exact absurd hsub nofun

theorem StepOutcome.not_faulted {s t : State} (h : StepOutcome s t) (hs : s.runState ≠ .faulted)
    (hraises : s.runState = .running → ∀ a b c, s.TripleAtPc a b c → ∀ cause addr, ¬ s.Raises a b cause addr) :
    t.runState ≠ .faulted := by
  cases h with
  | stopped => exact hs
  | halts => exact nofun
  | faults hrun htriple hraise => exact absurd hraise (hraises hrun _ _ _ htriple _ _)
  | executes => rwa [subleqResult_runState]

/-- A run one step longer is safe when its first state is not FAULTED and the rest is safe. -/
theorem safeRun_succ {n : Nat} {s u : State} (h : step s = .next u) (hs : s.runState ≠ .faulted) (hu : SafeRun n u) :
    SafeRun (n + 1) s := by
  intro k hk t ht
  cases k with
  | zero =>
    obtain rfl : s = t := Host.Outcome.next.inj ht
    exact hs
  | succ k => exact hu k (Nat.le_of_succ_le_succ hk) t (by rwa [← run_succ h])

/-! ### The obligations -/

/-- Settles O51: a step that fetches overwrites the latch, and any other keeps it. -/
theorem latchBetweenStepsInfluencesNothing : Obligations.LatchBetweenStepsInfluencesNothing :=
  fun _ _ l h => ⟨fun hrun hpc => (step_withLatch_of_fetches l hrun hpc).trans h,
    fun hidle => step_withLatch_of_not_fetches l hidle h⟩

/-- Settles O52: the two states hold the same memory, so they and the states after them differ in the latch at most. -/
theorem portsAfterAStepDependOnlyOnPortsBefore : Obligations.PortsAfterAStepDependOnlyOnPortsBefore := by
  intro s s' t t' hs hs' hcfg hsnap hpc hrun hcause haddr h h'
  have hmem := mem_eq_of_snapshot_eq hs hs' hsnap
  have hsize := size_eq_of_snapshot_eq hsnap
  have hs'eq : s' = { s with latch := s'.latch } := by rw [hcfg, hmem, hsize, hpc, hrun, hcause, haddr]
  rw [hs'eq] at h'
  rw [← step_withLatch h h']
  exact ⟨rfl, rfl, rfl, rfl, rfl, rfl⟩

/-- Settles O50, by induction on the length of the run: its first step raises nothing and keeps the invariant. -/
theorem unboundedWrapRunsWithNonnegativeOperandsNeverFault :
    Obligations.UnboundedWrapRunsWithNonnegativeOperandsNeverFault := by
  intro n
  induction n with
  | zero =>
    intro s _ hsafe _ _ _ k hk t ht
    obtain rfl := Nat.le_zero.mp hk
    obtain rfl : s = t := Host.Outcome.next.inj ht
    exact hsafe
  | succ n ih =>
    intro s hs hsafe hfull hwrap hnonneg
    obtain ⟨u, hstep⟩ := step_next s
    have hout := stepOutcome_of_step hstep
    have hu : u.runState ≠ .faulted := by
      refine hout.not_faulted hsafe fun hrun a b c htriple => ?_
      obtain ⟨ha, hb⟩ := hnonneg 0 n.succ_pos s rfl hrun a b c htriple
      exact hs.not_raises hfull hwrap htriple ha hb
    refine safeRun_succ hstep hsafe (ih u (hout.inv hs) hu ?_ ?_ fun k hk v hv => ?_)
    · rwa [hout.cfg_eq]
    · rwa [hout.cfg_eq]
    · exact hnonneg (k + 1) (Nat.succ_lt_succ hk) v ((run_succ hstep).trans hv)

end Sys2Proof.Machine

/-! SUPPORT. The driving loop and the outcomes of a run (45_host_interface.md R97, 70_reset_and_hazards.md R130): what a
report says of the run, and that a run settles in one RUN_STATE. -/

namespace Sys2Proof.Machine.Caller

/-! ### What the driving loop reports -/

/-- What a report says of the run it is about: the end, the count and the final state, one case per end that a finite watch
can see. -/
inductive Reports (s : State) (budget : Nat) : RunReport → Prop
  | abandoned {t : State} (hstays : StaysRunning s budget) (hfinal : run budget s = .next t) :
      Reports s budget ⟨.abandoned, budget, t⟩
  | halted {n : Nat} {t : State} (hlt : n < budget) (hstays : StaysRunning s n) (hfinal : run (n + 1) s = .next t)
      (hend : t.runState = .halted) : Reports s budget ⟨.halted, n, t⟩
  | faulted {n : Nat} {t : State} (hlt : n < budget) (hstays : StaysRunning s n) (hfinal : run (n + 1) s = .next t)
      (hend : t.runState = .faulted) : Reports s budget ⟨.faulted, n, t⟩

/-- A report of the run from the next state, counted one STEP longer, is a report of the run from this one. -/
theorem Reports.countStep {s u : State} {budget : Nat} {report : RunReport} (hrun : s.runState = .running)
    (hstep : step s = .next u) (h : Reports u budget report) : Reports s (budget + 1) report.countStep := by
  cases h with
  | abandoned hstays hfinal =>
    exact .abandoned ((staysRunning_succ hstep).mpr ⟨hrun, hstays⟩) ((run_succ hstep).trans hfinal)
  | halted hlt hstays hfinal hend =>
    exact .halted (Nat.succ_lt_succ hlt) ((staysRunning_succ hstep).mpr ⟨hrun, hstays⟩)
      ((run_succ hstep).trans hfinal) hend
  | faulted hlt hstays hfinal hend =>
    exact .faulted (Nat.succ_lt_succ hlt) ((staysRunning_succ hstep).mpr ⟨hrun, hstays⟩)
      ((run_succ hstep).trans hfinal) hend

theorem drive_reports {s : State} (budget : Nat) (hrun : s.runState = .running) :
    Reports s budget (drive budget s) := by
  induction budget generalizing s with
  | zero => exact .abandoned (staysRunning_zero hrun) rfl
  | succ budget ih =>
    obtain ⟨u, hstep⟩ := step_next s
    rw [drive_succ hstep]
    cases hu : u.runState with
    | halted => exact .halted budget.succ_pos (staysRunning_zero hrun) (run_succ hstep) hu
    | faulted => exact .faulted budget.succ_pos (staysRunning_zero hrun) (run_succ hstep) hu
    | running => exact (ih hu).countStep hrun hstep

/-- The report names an outcome that the run has (R130). -/
theorem Reports.hasOutcome {s : State} {budget : Nat} {report : RunReport} (h : Reports s budget report) :
    RunHasOutcome s (some budget) report.ended := by
  cases h with
  | abandoned hstays => exact ⟨budget, rfl, hstays⟩
  | halted hlt hstays hfinal hend => exact ⟨_, fun _ hb => Option.some.inj hb ▸ hlt, hstays, _, hfinal, hend⟩
  | faulted hlt hstays hfinal hend => exact ⟨_, fun _ hb => Option.some.inj hb ▸ hlt, hstays, _, hfinal, hend⟩

/-! ### A run settles in one RUN_STATE, so it has one outcome -/

/-- A run keeps the terminal state it has reached (R68). -/
theorem run_eq_of_terminal {s t : State} {m k : Nat} (h : run m s = .next t) (hstop : t.runState ≠ .running)
    (hle : m ≤ k) : run k s = .next t := by
  induction m generalizing s k with
  | zero =>
    obtain rfl : s = t := Host.Outcome.next.inj h
    exact run_of_terminal hstop k
  | succ m ih =>
    obtain ⟨u, hstep⟩ := step_next s
    obtain ⟨k, rfl⟩ := Nat.exists_eq_succ_of_ne_zero (Nat.ne_zero_of_lt hle)
    rw [run_succ hstep] at h ⊢
    exact ih h (Nat.le_of_succ_le_succ hle)

/-- A host with this budget (`none`: that never stops) issues at least `n` STEPs. -/
def WithinBudget (budget : Option Nat) (n : Nat) : Prop := ∀ b, budget = some b → n ≤ b

theorem WithinBudget.max {budget : Option Nat} {m n : Nat} (hm : WithinBudget budget m) (hn : WithinBudget budget n) :
    WithinBudget budget (max m n) :=
  fun b hb => max_le (hm b hb) (hn b hb)

/-- From some STEP of the host on, RUN_STATE is `r` after every STEP it issues. -/
def SettlesIn (s : State) (budget : Option Nat) (r : RunState) : Prop :=
  ∃ m, WithinBudget budget m ∧ ∀ k, m ≤ k → WithinBudget budget k → ∃ t, run k s = .next t ∧ t.runState = r

theorem SettlesIn.unique {s : State} {budget : Option Nat} {r r' : RunState} (h : SettlesIn s budget r)
    (h' : SettlesIn s budget r') : r = r' := by
  obtain ⟨m, hm, hr⟩ := h
  obtain ⟨m', hm', hr'⟩ := h'
  obtain ⟨t, ht, rfl⟩ := hr _ (le_max_left m m') (hm.max hm')
  obtain ⟨t', ht', rfl⟩ := hr' _ (le_max_right m m') (hm.max hm')
  rw [Host.Outcome.next.inj (ht.symm.trans ht')]

theorem EndsAfter.settlesIn {s : State} {budget : Option Nat} {n : Nat} {r : RunState} (h : EndsAfter s n r)
    (hstop : r ≠ .running) (hn : WithinBudget budget (n + 1)) : SettlesIn s budget r := by
  obtain ⟨-, t, ht, rfl⟩ := h
  exact ⟨n + 1, hn, fun k hk _ => ⟨t, run_eq_of_terminal ht hstop hk, rfl⟩⟩

/-- The outcome of a run that settles in this RUN_STATE: a run that stays RUNNING is abandoned by a host that stops, and
diverges under one that does not. -/
def endOf (budget : Option Nat) : RunState → RunEnd
  | .halted => .halted
  | .faulted => .faulted
  | .running =>
    match budget with
    | some _ => .abandoned
    | none => .diverges

theorem settlesIn_of_hasOutcome {s : State} {budget : Option Nat} {e : RunEnd} (h : RunHasOutcome s budget e) :
    ∃ r, SettlesIn s budget r ∧ e = endOf budget r := by
  have hfromStart : WithinBudget budget 0 := fun _ _ => Nat.zero_le _
  cases e with
  | halted =>
    obtain ⟨n, hlt, hends⟩ := h
    exact ⟨.halted, hends.settlesIn nofun hlt, rfl⟩
  | faulted =>
    obtain ⟨n, hlt, hends⟩ := h
    exact ⟨.faulted, hends.settlesIn nofun hlt, rfl⟩
  | abandoned =>
    obtain ⟨b, rfl, hstays⟩ := h
    exact ⟨.running, ⟨0, hfromStart, fun k _ hk => hstays k (hk b rfl)⟩, rfl⟩
  | diverges =>
    obtain ⟨rfl, hdiverges⟩ := h
    exact ⟨.running, ⟨0, hfromStart, fun k _ _ => hdiverges k k le_rfl⟩, rfl⟩

theorem hasOutcome_unique {s : State} {budget : Option Nat} {e e' : RunEnd} (h : RunHasOutcome s budget e)
    (h' : RunHasOutcome s budget e') : e = e' := by
  obtain ⟨r, hr, rfl⟩ := settlesIn_of_hasOutcome h
  obtain ⟨r', hr', rfl⟩ := settlesIn_of_hasOutcome h'
  rw [hr.unique hr']

/-! ### Every run has an outcome -/

theorem staysRunning_of_hasOutcome_abandoned {s : State} {b : Nat} (h : RunHasOutcome s (some b) .abandoned) :
    StaysRunning s b := by
  obtain ⟨_, hb, hstays⟩ := h
  exact Option.some.inj hb ▸ hstays

/-- A run that ends under some budget ends for a host that never stops. -/
theorem hasOutcome_none_of_some {s : State} {b : Nat} {e : RunEnd} (h : RunHasOutcome s (some b) e)
    (he : e ≠ .abandoned) : RunHasOutcome s none e := by
  cases e with
  | halted => exact h.imp fun _ hends => ⟨nofun, hends.2⟩
  | faulted => exact h.imp fun _ hends => ⟨nofun, hends.2⟩
  | abandoned => exact absurd rfl he
  | diverges => exact absurd h.1 nofun

theorem drive_hasOutcome {s : State} (b : Nat) (hrun : s.runState = .running) :
    RunHasOutcome s (some b) (drive b s).ended :=
  (drive_reports b hrun).hasOutcome

/-- No finite watch shows divergence (D25): it is abandonment at every budget. -/
theorem hasOutcome_diverges_iff {s : State} (hrun : s.runState = .running) :
    RunHasOutcome s none .diverges ↔ ∀ b, (drive b s).ended = .abandoned := by
  refine ⟨fun h b => hasOutcome_unique (drive_hasOutcome b hrun) ⟨b, rfl, h.2 b⟩, fun h => ⟨rfl, fun b => ?_⟩⟩
  have hb := drive_hasOutcome b hrun
  rw [h b] at hb
  exact staysRunning_of_hasOutcome_abandoned hb

theorem exists_hasOutcome {s : State} (budget : Option Nat) (hrun : s.runState = .running) :
    ∃ e, RunHasOutcome s budget e := by
  cases budget with
  | some b => exact ⟨_, drive_hasOutcome b hrun⟩
  | none =>
    by_cases h : ∀ b, (drive b s).ended = .abandoned
    · exact ⟨.diverges, (hasOutcome_diverges_iff hrun).mpr h⟩
    · obtain ⟨b, hb⟩ := not_forall.mp h
      exact ⟨_, hasOutcome_none_of_some (drive_hasOutcome b hrun) hb⟩

/-! ### The obligations -/

/-- Settles O53: by the three ends that a report can name. -/
theorem runReportCountsTheExecutedInstructions : Obligations.RunReportCountsTheExecutedInstructions := by
  intro budget s hrun
  have hreports := drive_reports budget hrun
  generalize drive budget s = report at hreports ⊢
  cases hreports with
  | abandoned hstays hfinal => exact ⟨hstays, nofun, nofun, fun _ => ⟨rfl, hfinal⟩⟩
  | halted _ hstays hfinal hend => exact ⟨hstays, fun _ => ⟨hfinal, hend⟩, nofun, nofun⟩
  | faulted _ hstays hfinal hend => exact ⟨hstays, nofun, fun _ => ⟨hfinal, hend⟩, nofun⟩

/-- Settles O55: some outcome holds, two outcomes settle in one RUN_STATE and so are the same, and the report names one. -/
theorem everyRunHasExactlyOneOfTheFourOutcomes : Obligations.EveryRunHasExactlyOneOfTheFourOutcomes := by
  intro s budget hrun
  obtain ⟨e, he⟩ := exists_hasOutcome budget hrun
  refine ⟨⟨e, he, fun e' he' => hasOutcome_unique he' he⟩, ?_, ?_⟩
  · rintro b rfl
    exact drive_hasOutcome b hrun
  · rintro rfl
    exact hasOutcome_diverges_iff hrun

/-- Settles O56, by induction on the transactions: a read leaves the run where it is, and a LOAD ends it. -/
theorem runDependsOnlyOnTheStepsBeforeTheNextLoad : Obligations.RunDependsOnlyOnTheStepsBeforeTheNextLoad := by
  intro txs
  induction txs with
  | nil => exact fun _ => rfl
  | cons tx txs ih =>
    intro s
    cases tx with
    | load image entry => rfl
    | step =>
      obtain ⟨t, hstep⟩ := step_next s
      cases hr : t.runState <;>
        simp only [follow, stepsBeforeLoad, drive_succ hstep, hstep, hr, ih t]
    | readStatus => exact ih s
    | readPc => exact ih s
    | readSize => exact ih s
    | snapshot => exact ih s
    | readFault => exact ih s

end Sys2Proof.Machine.Caller

/-! SUPPORT. The pseudo-instructions (30_encoding.md R64, R65): SUB as the one building block, ADD as three of them, MOV as a
SUB that clears y followed by an ADD, and an expansion that lies in memory. -/

namespace Sys2Proof.Machine

/-! ### Writing back what a cell holds -/

theorem State.read_of_fetchCell {s : State} {x : Nat} {v : Int} (h : s.fetchCell x = some v) :
    x < s.size ∧ Memory.read s.mem x = v := by
  unfold fetchCell at h
  split at h
  · next hvalid => exact ⟨hvalid, Option.some.inj h⟩
  · exact absurd h nofun

theorem State.memWrite_of_fetchCell {s : State} {x : Nat} {v : Int} (hwf : Memory.wf s.mem)
    (h : s.fetchCell x = some v) : s.memWrite x v = s := by
  obtain ⟨hvalid, hread⟩ := read_of_fetchCell h
  have hmem : Memory.write s.mem x v = s.mem := by
    refine Memory.eq_of_read_eq (Memory.wf_write hwf x v) hwf fun k => ?_
    rw [Memory.read_write hwf, ← hread]
    exact ite_eq_right_iff.mpr fun hk => by rw [hk]
  simp only [memWrite, touch_of_lt hvalid, hmem]

/-- SUBLEQ z, z over a cell that holds 0 moves PC and nothing else. -/
theorem subleqResult_of_zero_cell {s : State} {z : Int} (c : Int) (hwf : Memory.wf s.mem)
    (hz : s.fetchCell z.toNat = some 0) : subleqResult s z z c 0 = { s with pc := c } := by
  obtain ⟨hvalid, -⟩ := State.read_of_fetchCell hz
  rw [subleqResult, State.touch_touch, State.touch_of_lt hvalid, State.memWrite_of_fetchCell hwf hz]
  rfl

theorem State.fetchCell_eq_operand {s : State} {i : Nat} (hvalid : i < s.size) : s.fetchCell i = some (s.operand i) := by
  rw [operand, Int.toNat_natCast, fetchCell, if_pos hvalid, Option.getD_some]

/-! ### Nested subtraction -/

/-- Wrapping the subtrahend first changes no wrapped difference. -/
theorem wrapW_sub_wrapW (W : Nat) (y x : Int) : wrapW W (y - wrapW W x) = wrapW W (y - x) := by
  obtain ⟨k, hk⟩ := wrapW_eq_add_mul W x
  have hdiff : y - wrapW W x = y - x + -k * (2 ^ W : Nat) := by rw [hk]; ring
  rw [hdiff, wrapW_add_mul]

namespace Pseudo

/-! ### SUB -/

/-- The state that SUB x, y leaves when `r` is the result. -/
def subResult (s : State) (x y r : Int) : State := subleqResult s x y (s.pc + 3) r

@[simp] theorem subResult_cfg (s : State) (x y r : Int) : (subResult s x y r).cfg = s.cfg := subleqResult_cfg ..
@[simp] theorem subResult_runState (s : State) (x y r : Int) : (subResult s x y r).runState = s.runState :=
  subleqResult_runState ..
/-- SUB falls through, whether its branch is taken or not. -/
@[simp] theorem subResult_pc (s : State) (x y r : Int) : (subResult s x y r).pc = s.pc + 3 := by
  rw [subResult, subleqResult_pc, nextPc_eq, ite_self]

theorem subResult_mem_wf {s : State} (hwf : Memory.wf s.mem) (x y r : Int) : Memory.wf (subResult s x y r).mem :=
  subleqResult_mem_wf hwf ..

theorem subResult_size (s : State) (x y r : Int) :
    (subResult s x y r).size = max s.size (max (x.toNat + 1) (y.toNat + 1)) := subleqResult_size ..

theorem subResult_operand_same {s : State} (hwf : Memory.wf s.mem) (x y r : Int) :
    (subResult s x y r).operand y = r := by
  rw [subResult, subleqResult_operand hwf, if_pos rfl]

theorem subResult_operand_ne {s : State} (hwf : Memory.wf s.mem) (x r : Int) {y i : Int} (hne : i.toNat ≠ y.toNat) :
    (subResult s x y r).operand i = s.operand i := by
  rw [subResult, subleqResult_operand hwf, if_neg hne]

theorem exec_sub {s : State} {x y r : Int} (hops : OperandsInMemory s.cfg x y)
    (hsub : subtract s.cfg (s.operand y) (s.operand x) = some r) :
    exec (sub x y s.pc) s = .next (subResult s x y r) :=
  exec_of_subtract _ hops hsub

/-- A SUB that stands where PC is, before the rest of a sequence. -/
theorem execSeq_sub {s : State} {x y p r : Int} (is : List Instr) (hrun : s.runState = .running) (hp : p = s.pc)
    (hops : OperandsInMemory s.cfg x y) (hsub : subtract s.cfg (s.operand y) (s.operand x) = some r) :
    execSeq (sub x y p :: is) s = execSeq is (subResult s x y r) := by
  subst hp
  exact execSeq_cons is hrun (exec_sub hops hsub)

/-- A SUB that overflows under FAULT ends the sequence. -/
theorem execSeq_sub_overflow {s : State} {x y : Int} (p : Int) (is : List Instr) (hrun : s.runState = .running)
    (hops : OperandsInMemory s.cfg x y) (hmode : s.cfg.overflow = .fault)
    (hfit : ¬ Fits s.cfg.cellBits (s.operand y - s.operand x)) :
    execSeq (sub x y p :: is) s = .next (s.raiseFault .overflow y) := by
  have hexec : exec (sub x y p) s = .next (s.raiseFault .overflow y) := exec_of_overflow _ hops hmode hfit
  rw [execSeq_cons is hrun hexec]
  exact execSeq_of_terminal is nofun

/-! ### ADD -/

/-- What R65 asks of the state before an ADD or a MOV that uses cell z: z holds 0 and is neither x nor y. -/
structure Ready (s : State) (z x y : Int) : Prop where
  width : 1 ≤ s.cfg.cellBits
  memory : Memory.wf s.mem
  running : s.runState = .running
  opsX : OperandsInMemory s.cfg z x
  opsY : OperandsInMemory s.cfg z y
  ne_x : x ≠ z
  ne_y : y ≠ z
  zero : s.operand z = 0

theorem Ready.toNat_x_ne {s : State} {z x y : Int} (h : Ready s z x y) : x.toNat ≠ z.toNat := by
  obtain ⟨⟨hz, -⟩, hx, -⟩ := h.opsX
  have hne := h.ne_x
  omega

theorem Ready.toNat_y_ne {s : State} {z x y : Int} (h : Ready s z x y) : y.toNat ≠ z.toNat := by
  obtain ⟨⟨hz, -⟩, hy, -⟩ := h.opsY
  have hne := h.ne_y
  omega

/-- What R65 says of the state after an expansion of `len` cells that ends without a fault: `v` in cell y, z as before. -/
def Leaves (s : State) (z y len v : Int) (t : State) : Prop :=
  t.runState = .running ∧ t.pc = s.pc + len ∧ t.fetchCell y.toNat = some v ∧ t.fetchCell z.toNat = some 0 ∧
    ∀ i : Nat, i ≠ y.toNat → i ≠ z.toNat → t.operand i = s.operand i

/-- The state that ADD x, y leaves when `neg` and `sum` are the results of its first two subtractions. -/
def addResult (s : State) (z x y neg sum : Int) : State :=
  subResult (subResult (subResult s x z neg) z y sum) z z 0

theorem execSeq_add {s : State} {z x y neg sum : Int} (h : Ready s z x y)
    (hneg : subtract s.cfg 0 (s.operand x) = some neg) (hsum : subtract s.cfg (s.operand y) neg = some sum) :
    execSeq (add z x y s.pc) s = .next (addResult s z x y neg sum) := by
  have hneg' : subtract s.cfg (s.operand z) (s.operand x) = some neg := by rw [h.zero, hneg]
  have hsum' : subtract s.cfg ((subResult s x z neg).operand y) ((subResult s x z neg).operand z) = some sum := by
    rw [subResult_operand_ne h.memory x neg h.toNat_y_ne, subResult_operand_same h.memory, hsum]
  have hrun : ∀ {x y r} {u : State}, u.runState = .running → (subResult u x y r).runState = .running :=
    (subResult_runState ..).trans
  have hpc : s.pc + 6 = (subResult (subResult s x z neg) z y sum).pc := by rw [subResult_pc, subResult_pc]; ring
  rw [add, execSeq_sub _ h.running rfl h.opsX.symm hneg',
    execSeq_sub _ (hrun h.running) (subResult_pc ..).symm (by simpa using h.opsY) (by simpa using hsum'),
    execSeq_sub _ (hrun (hrun h.running)) hpc (by simpa using h.opsY.1) (subtract_self ..)]
  rfl

theorem addResult_leaves {s : State} {z x y : Int} (h : Ready s z x y) (neg sum : Int) :
    Leaves s z y 9 sum (addResult s z x y neg sum) := by
  have hwf1 := subResult_mem_wf h.memory x z neg
  have hwf2 := subResult_mem_wf hwf1 z y sum
  refine ⟨?_, ?_, ?_, subleqResult_fetchCell_same hwf2 .., fun i hy hz => ?_⟩
  · simp [addResult, h.running]
  · simp only [addResult, subResult_pc]; ring
  · rw [State.fetchCell_eq_operand (by simp only [addResult, subResult_size]; omega), State.operand_toNat, addResult,
      subResult_operand_ne hwf2 z 0 h.toNat_y_ne, subResult_operand_same hwf1]
  · rw [addResult, subResult_operand_ne hwf2 z 0 (by simpa), subResult_operand_ne hwf1 z sum (by simpa),
      subResult_operand_ne h.memory x neg (by simpa)]

/-- ADD adds when OVF = WRAP, or when the negated addend and the sum fit. -/
theorem add_leaves_sum {s : State} {z x y : Int} (h : Ready s z x y)
    (hfits : s.cfg.overflow = .wrap ∨
      (Fits s.cfg.cellBits (0 - s.operand x) ∧ Fits s.cfg.cellBits (s.operand y + s.operand x))) :
    ∃ t, execSeq (add z x y s.pc) s = .next t ∧ Leaves s z y 9 (wrapW s.cfg.cellBits (s.operand y + s.operand x)) t := by
  have hvalue : wrapW s.cfg.cellBits (s.operand y - wrapW s.cfg.cellBits (0 - s.operand x))
      = wrapW s.cfg.cellBits (s.operand y + s.operand x) := by
    rw [wrapW_sub_wrapW]; congr 1; ring
  have hneg : NoOverflow s.cfg 0 (s.operand x) := hfits.imp_right And.left
  have hsum : NoOverflow s.cfg (s.operand y) (wrapW s.cfg.cellBits (0 - s.operand x)) := by
    refine hfits.imp_right fun ⟨hnegfit, hsumfit⟩ => ?_
    rw [wrapW_of_fits h.width hnegfit]
    rwa [show s.operand y - (0 - s.operand x) = s.operand y + s.operand x by ring]
  have hexec := execSeq_add h (subtract_of_noOverflow h.width hneg) (subtract_of_noOverflow h.width hsum)
  rw [hvalue] at hexec
  exact ⟨_, hexec, addResult_leaves h _ _⟩

/-- ADD faults at z when the negated addend does not fit. -/
theorem execSeq_add_of_neg_overflow {s : State} {z x y : Int} (h : Ready s z x y) (hmode : s.cfg.overflow = .fault)
    (hfit : ¬ Fits s.cfg.cellBits (0 - s.operand x)) :
    execSeq (add z x y s.pc) s = .next (s.raiseFault .overflow z) :=
  execSeq_sub_overflow _ _ h.running h.opsX.symm hmode (by rwa [h.zero])

/-- ADD faults at y when the negated addend fits and the sum does not. -/
theorem execSeq_add_of_sum_overflow {s : State} {z x y : Int} (h : Ready s z x y) (hmode : s.cfg.overflow = .fault)
    (hneg : Fits s.cfg.cellBits (0 - s.operand x)) (hsum : ¬ Fits s.cfg.cellBits (s.operand y + s.operand x)) :
    execSeq (add z x y s.pc) s = .next ((subResult s x z (0 - s.operand x)).raiseFault .overflow y) := by
  have hfirst : subtract s.cfg (s.operand z) (s.operand x) = some (0 - s.operand x) := by
    rw [h.zero]; exact subtract_of_fits h.width hneg
  have hdiff : s.operand y - (0 - s.operand x) = s.operand y + s.operand x := by ring
  rw [add, execSeq_sub _ h.running rfl h.opsX.symm hfirst]
  refine execSeq_sub_overflow _ _ (by simp [h.running]) (by simpa using h.opsY) (by simpa using hmode) ?_
  rwa [subResult_cfg, subResult_operand_ne h.memory _ _ h.toNat_y_ne, subResult_operand_same h.memory, hdiff]

/-! ### MOV -/

/-- The state after the first instruction of MOV x, y, which clears y. -/
def cleared (s : State) (y : Int) : State := subResult s y y 0

theorem mov_eq_sub_add (z x y p : Int) : mov z x y p = sub y y p :: add z x y (p + 3) := by
  have h6 : p + 3 + 3 = p + 6 := by ring
  have h9 : p + 3 + 6 = p + 9 := by ring
  rw [mov, add, h6, h9]

/-- MOV x, y is ADD x, y after y is cleared. -/
theorem execSeq_mov {s : State} {z x y : Int} (h : Ready s z x y) :
    execSeq (mov z x y s.pc) s = execSeq (add z x y (cleared s y).pc) (cleared s y) := by
  have hops : OperandsInMemory s.cfg y y := ⟨h.opsY.2, h.opsY.2⟩
  rw [mov_eq_sub_add, execSeq_sub _ h.running rfl hops (subtract_self ..), cleared, subResult_pc]

theorem Ready.cleared {s : State} {z x y : Int} (h : Ready s z x y) : Ready (cleared s y) z x y where
  width := by simpa [Pseudo.cleared] using h.width
  memory := subResult_mem_wf h.memory ..
  running := by simpa [Pseudo.cleared] using h.running
  opsX := by simpa [Pseudo.cleared] using h.opsX
  opsY := by simpa [Pseudo.cleared] using h.opsY
  ne_x := h.ne_x
  ne_y := h.ne_y
  zero := (subResult_operand_ne h.memory y 0 h.toNat_y_ne.symm).trans h.zero

/-- What follows the clearing of y leaves, of the state before it, what R65 says. -/
theorem leaves_of_leaves_cleared {s t : State} {z y v : Int} (hwf : Memory.wf s.mem)
    (h : Leaves (cleared s y) z y 9 v t) : Leaves s z y 12 v t := by
  obtain ⟨hrun, hpc, hy, hz, hkeep⟩ := h
  refine ⟨hrun, ?_, hy, hz, fun i hiy hiz => ?_⟩
  · rw [hpc, cleared, subResult_pc]; ring
  · rw [hkeep i hiy hiz, cleared, subResult_operand_ne hwf y 0 (by simpa)]

/-- MOV leaves the wrapped value that ADD finds in x after y is cleared, when OVF = WRAP, or that value and its negation
fit. -/
theorem mov_leaves {s : State} {z x y : Int} (h : Ready s z x y)
    (hfits : s.cfg.overflow = .wrap ∨ (Fits s.cfg.cellBits (0 - (cleared s y).operand x) ∧
      Fits s.cfg.cellBits ((cleared s y).operand x))) :
    ∃ t, execSeq (mov z x y s.pc) s = .next t ∧ Leaves s z y 12 (wrapW s.cfg.cellBits ((cleared s y).operand x)) t := by
  have hcfg : (cleared s y).cfg = s.cfg := subResult_cfg ..
  have hsum : (cleared s y).operand y + (cleared s y).operand x = (cleared s y).operand x := by
    rw [cleared, subResult_operand_same h.memory, zero_add]
  obtain ⟨t, hexec, hleaves⟩ := add_leaves_sum h.cleared (by rwa [hsum, hcfg])
  rw [hsum, hcfg] at hleaves
  exact ⟨t, (execSeq_mov h).trans hexec, leaves_of_leaves_cleared h.memory hleaves⟩

theorem cleared_operand_ne {s : State} {z x y : Int} (h : Ready s z x y) (hne : x ≠ y) :
    (cleared s y).operand x = s.operand x := by
  obtain ⟨⟨-, hx, -⟩, -, hy, -⟩ := And.intro h.opsX h.opsY
  exact subResult_operand_ne h.memory y 0 (by omega)

/-- The premises that the obligations on ADD and MOV share. -/
theorem ready_of_inv {s : State} {z x y : Int} (hs : s.Inv) (hrun : s.runState = .running)
    (hx : OperandsInMemory s.cfg z x) (hy : OperandsInMemory s.cfg z y) (hxz : x ≠ z) (hyz : y ≠ z)
    (hz : s.operand z = 0) : Ready s z x y :=
  ⟨Nat.le_of_succ_le hs.legal.1, hs.memory, hrun, hx, hy, hxz, hyz, hz⟩

/-- The least value is the one whose negation does not fit. -/
theorem not_fits_neg_least (W : Nat) : ¬ Fits W (0 - -(half W : Int)) := by
  unfold Fits; omega

end Pseudo

/-! ### The obligations on single instructions and on ADD and MOV -/

/-- Settles O46: Z less itself is 0, which always branches, and over a Z that holds 0 the difference is MEM[x] itself. -/
theorem oneInstructionPseudosHaveTheirEffects : Obligations.OneInstructionPseudosHaveTheirEffects := by
  intro s z x target hs hrun hops
  have hzz : OperandsInMemory s.cfg z z := ⟨hops.1, hops.1⟩
  have hxx : OperandsInMemory s.cfg x x := ⟨hops.2, hops.2⟩
  have hclear := fun c => exec_stores_and_branches (s := s) c hs.memory hzz (subtract_self ..)
  refine ⟨fun hz => ?_, ?_, ?_, fun hz => ?_, ?_⟩
  · rw [Pseudo.nop, exec_of_subtract _ hzz (subtract_self ..), subleqResult_of_zero_cell _ hs.memory hz]
  · obtain ⟨t, hexec, hcell, hpc, -⟩ := hclear target
    exact ⟨t, hexec, hpc, hcell⟩
  · obtain ⟨t, hexec, hcell, hpc, -, hstays⟩ := hclear (-1)
    have hpc' : t.pc = -1 := hpc
    refine ⟨t, hexec, hpc', hcell, step_of_pcOutOfRange (hstays.trans hrun) (.inl ?_)⟩
    rw [hpc']; decide
  · have hsub : subtract s.cfg (s.operand x) (s.operand z) = some (s.operand x) := by
      rw [hz]
      simpa using subtract_of_fits (va := 0) (Nat.le_of_succ_le hs.legal.1) (by simpa using hs.cells.fits_operand x)
    exact ⟨_, exec_of_subtract target hops hsub, nextPc_eq .., by rw [subleqResult_operand hs.memory, if_pos rfl]⟩
  · obtain ⟨t, hexec, hcell, hpc, -⟩ := exec_stores_and_branches (s.pc + 3) hs.memory hxx (subtract_self ..)
    exact ⟨t, hexec, hpc, hcell⟩

/-- Settles O57: SUB is SUBLEQ with both branches at the next instruction. -/
theorem subExpansionSubtractsOrFaults : Obligations.SubExpansionSubtractsOrFaults := by
  refine fun s x y hs hrun hops => ⟨fun hno => ?_, fun hover => ?_⟩
  · have hexec := Pseudo.exec_sub hops (subtract_of_noOverflow (Nat.le_of_succ_le hs.legal.1) hno)
    exact ⟨_, hexec, (Pseudo.subResult_runState ..).trans hrun, Pseudo.subResult_pc ..,
      subleqResult_fetchCell_same hs.memory .., fun i hi => subleqResult_operand_ne hs.memory _ _ _ hi⟩
  · obtain ⟨hmode, hfit⟩ := not_or.mp hover
    refine exec_of_overflow _ hops ?_ hfit
    cases hcase : s.cfg.overflow with
    | wrap => exact absurd hcase hmode
    | fault => rfl

/-- Settles O47: the second subtraction takes the negated addend from MEM[y], and the third restores Z. -/
theorem addExpansionAdds : Obligations.AddExpansionAdds :=
  fun _ _ _ _ hs hrun hx hy hxz hyz hz => Pseudo.add_leaves_sum (Pseudo.ready_of_inv hs hrun hx hy hxz hyz hz)

/-- Settles O48: MOV is ADD onto a cleared y, and MEM[x] fits W bits. -/
theorem movExpansionCopies : Obligations.MovExpansionCopies := by
  intro s z x y hs hrun hx hy hxy hxz hyz hz hfits
  have hready := Pseudo.ready_of_inv hs hrun hx hy hxz hyz hz
  have hkeep := Pseudo.cleared_operand_ne hready hxy
  have hxfits := hs.cells.fits_operand x
  have hmov := Pseudo.mov_leaves hready (by rw [hkeep]; exact hfits.imp_right fun hneg => ⟨hneg, hxfits⟩)
  rwa [hkeep, wrapW_of_fits hready.width hxfits] at hmov

/-- Settles O49: the first subtraction of ADD, which is also the second of MOV, negates the least value. -/
theorem addAndMovFaultOnTheLeastValue : Obligations.AddAndMovFaultOnTheLeastValue := by
  intro s z x y hs hrun hx hy hxz hyz hz hmode hleast
  have hready := Pseudo.ready_of_inv hs hrun hx hy hxz hyz hz
  have hfit : ¬ Fits s.cfg.cellBits (0 - s.operand x) := by rw [hleast]; exact Pseudo.not_fits_neg_least _
  refine ⟨⟨_, Pseudo.execSeq_add_of_neg_overflow hready hmode hfit, rfl, rfl, rfl⟩, fun hxy => ?_⟩
  have hcfg : (Pseudo.cleared s y).cfg = s.cfg := Pseudo.subResult_cfg ..
  have hadd := Pseudo.execSeq_add_of_neg_overflow hready.cleared (by rwa [hcfg])
    (by rwa [hcfg, Pseudo.cleared_operand_ne hready hxy])
  exact ⟨_, (Pseudo.execSeq_mov hready).trans hadd, rfl, rfl, rfl⟩

/-- Settles O58: the second subtraction of ADD is the sum, and MOV x, x adds the cleared cell to itself. -/
theorem addFaultsOnAnUnfittingSumAndMovOntoItselfClears :
    Obligations.AddFaultsOnAnUnfittingSumAndMovOntoItselfClears := by
  refine fun s z x y hs hrun hx hy hxz hyz hz => ⟨fun hmode hneg hsum => ?_, ?_⟩
  · have hready := Pseudo.ready_of_inv hs hrun hx hy hxz hyz hz
    exact ⟨_, Pseudo.execSeq_add_of_sum_overflow hready hmode hneg hsum, rfl, rfl, rfl⟩
  · have hready := Pseudo.ready_of_inv hs hrun hx hx hxz hxz hz
    have hzero : (Pseudo.cleared s x).operand x = 0 := Pseudo.subResult_operand_same hs.memory ..
    have hmov := Pseudo.mov_leaves hready (.inr (by simpa [hzero] using fits_zero _))
    rwa [hzero, wrapW_of_fits hready.width (fits_zero _)] at hmov

end Sys2Proof.Machine

/-! SUPPORT. An expansion that lies in memory (30_encoding.md R65, 40_subleq.md section 1): each of its steps fetches the
instruction that `Pseudo.execSeq` runs, because no step writes a cell of the expansion. -/

namespace Sys2Proof.Machine

/-! ### The latch through a sequence (R27) -/

theorem Pseudo.execSeq_next (is : List Instr) (s : State) : ∃ t, execSeq is s = .next t := by
  induction is generalizing s with
  | nil => exact ⟨s, rfl⟩
  | cons i is ih =>
    by_cases hrun : s.runState = .running
    · obtain ⟨t, hexec⟩ := exec_next i s
      rw [execSeq_cons is hrun hexec]
      exact ih t
    · exact ⟨s, execSeq_of_terminal _ hrun⟩

theorem Pseudo.execSeq_withLatch {is : List Instr} {s u : State} (l : Latch) (h : execSeq is s = .next u) :
    execSeq is { s with latch := l } = .next { u with latch := l } := by
  induction is generalizing s with
  | nil =>
    obtain rfl : s = u := Host.Outcome.next.inj h
    rfl
  | cons i is ih =>
    by_cases hrun : s.runState = .running
    · obtain ⟨t, hexec⟩ := exec_next i s
      rw [execSeq_cons is hrun hexec] at h
      rw [execSeq_cons (s := { s with latch := l }) is hrun (exec_withLatch l hexec)]
      exact ih h
    · obtain rfl := Host.Outcome.next.inj ((execSeq_of_terminal _ hrun).symm.trans h)
      exact execSeq_of_terminal (s := { s with latch := l }) _ hrun

/-! ### One instruction of an expansion in memory -/

/-- The cells lo .. hi - 1 that have a value in `s` have the same value in `t`. -/
def KeepsCells (lo hi : Int) (s t : State) : Prop :=
  ∀ (i : Nat) (v : Int), lo ≤ i → i < hi → s.fetchCell i = some v → t.fetchCell i = some v

theorem Pseudo.LiesAt.of_keepsCells {s t : State} {lo hi p : Int} {is : List Instr} (h : LiesAt s p is)
    (hkeep : KeepsCells lo hi s t) (hlo : lo ≤ p) (hhi : p + 3 * is.length ≤ hi) : LiesAt t p is := by
  induction is generalizing p with
  | nil => trivial
  | cons i is ih =>
    obtain ⟨a, b, c⟩ := i
    obtain ⟨⟨h0, ha, hb, hc⟩, hrest⟩ := h
    rw [List.length_cons] at hhi
    push_cast at hhi
    exact ⟨⟨h0, hkeep _ _ (by omega) (by omega) ha, hkeep _ _ (by omega) (by omega) hb,
      hkeep _ _ (by omega) (by omega) hc⟩, ih hrest (by omega) (by omega)⟩

theorem subleqResult_keepsCells {s : State} (hwf : Memory.wf s.mem) {lo hi b : Int} (a c r : Int) (hb : 0 ≤ b)
    (hspares : b < lo ∨ hi ≤ b) : KeepsCells lo hi s (subleqResult s a b c r) := by
  intro i v hlo hhi hv
  rw [subleqResult_fetchCell_old hwf a c r (by omega) (State.read_of_fetchCell hv).1, hv]

/-- An instruction that falls through and spares the cells either stops the machine or leaves it at the next
instruction, with those cells kept. -/
theorem exec_stops_or_advances {s t : State} {lo hi a b c : Int} (hwf : Memory.wf s.mem) (hc : c = s.pc + 3)
    (hspares : b < lo ∨ hi ≤ b) (h : exec (.subleq a b c) s = .next t) :
    t.runState ≠ .running ∨ (t.pc = s.pc + 3 ∧ Memory.wf t.mem ∧ KeepsCells lo hi s t) := by
  obtain ⟨_, _, _, ⟨rfl, rfl, rfl⟩, ⟨_, _, -, rfl⟩ | ⟨-, -, rfl⟩ | ⟨⟨-, hb, -⟩, r, -, rfl⟩⟩ := exec_cases h
  · exact .inl nofun
  · exact .inl nofun
  · refine .inr ⟨?_, subleqResult_mem_wf hwf .., subleqResult_keepsCells hwf a c r hb hspares⟩
    rw [subleqResult_pc, nextPc_eq, hc, ite_self]

/-! ### The expansion -/

/-- The induction of `ExpansionInMemoryRunsAsItsInstructionsInOrder`: the rest of an expansion, somewhere in the cells
lo .. hi - 1 that its instructions spare. -/
theorem run_eq_execSeq_of_liesAt {s : State} {is : List Instr} {lo hi : Int} (hwf : Memory.wf s.mem)
    (hrun : s.runState = .running) (hlies : Pseudo.LiesAt s s.pc is) (hfalls : Pseudo.FallsThrough s.pc is)
    (hspares : Pseudo.SparesCells lo hi is) (hlo : lo ≤ s.pc) (hhi : s.pc + 3 * is.length ≤ hi) :
    ∃ t u, run is.length s = .next t ∧ Pseudo.execSeq is s = .next u ∧ { t with latch := u.latch } = u := by
  induction is generalizing s with
  | nil => exact ⟨s, s, rfl, rfl, rfl⟩
  | cons i is ih =>
    obtain ⟨a, b, c⟩ := i
    obtain ⟨htriple, hlies⟩ := hlies
    obtain ⟨hc, hfalls⟩ := hfalls
    obtain ⟨hb, hspares⟩ := hspares
    rw [List.length_cons] at hhi ⊢
    push_cast at hhi
    obtain ⟨t, hexec⟩ := exec_next (.subleq a b c) s
    have hstep : step s = .next { t with latch := ⟨a, b, c⟩ } :=
      (step_of_triple hrun htriple).trans (exec_withLatch _ hexec)
    rw [run_succ hstep, Pseudo.execSeq_cons is hrun hexec]
    by_cases htrun : t.runState = .running
    · obtain hstop | ⟨hpc, htwf, hkeep⟩ := exec_stops_or_advances hwf hc hb hexec
      · exact absurd htrun hstop
      · rw [← hpc] at hlies hfalls
        have hlies' := hlies.of_keepsCells (t := { t with latch := ⟨a, b, c⟩ }) hkeep (by omega) (by omega)
        obtain ⟨v, w, hv, hw, hlatch⟩ := ih (s := { t with latch := ⟨a, b, c⟩ }) htwf htrun hlies' hfalls hspares
          (by simp only; omega) (by simp only; omega)
        obtain ⟨u, hu⟩ := Pseudo.execSeq_next is t
        obtain rfl := Host.Outcome.next.inj ((Pseudo.execSeq_withLatch ⟨a, b, c⟩ hu).symm.trans hw)
        exact ⟨v, u, hv, hu, congrArg (fun x : State => { x with latch := u.latch }) hlatch⟩
    · exact ⟨_, t, run_of_terminal (s := { t with latch := ⟨a, b, c⟩ }) htrun _,
        Pseudo.execSeq_of_terminal is htrun, rfl⟩

/-- Settles O59, by induction on the instructions. -/
theorem expansionInMemoryRunsAsItsInstructionsInOrder : Obligations.ExpansionInMemoryRunsAsItsInstructionsInOrder :=
  fun _ _ hwf hrun hlies hfalls hspares => run_eq_execSeq_of_liesAt hwf hrun hlies hfalls hspares le_rfl le_rfl

end Sys2Proof.Machine
